-- ==== Sys2Proof/Word.lean ====
section
/-! DEFINITION. The machine's words: a byte, a command word, and the 64-bit data of the interface. -/

namespace Sys2Proof

/-- One byte of a register cell (R14: `byte` is `BitVec 8`). -/
abbrev Byte := BitVec 8

/-- A command word `W` (R70, R71). Bit 0 is its least significant bit (R13). -/
abbrev CmdWord := BitVec 16

/-- The data input `d` and the read data `rdata` (R70, R76): 64 bits, unsigned. -/
abbrev Data := BitVec 64

end Sys2Proof
end

