-- ==== Sys2Proof/Config.lean ====
section
/-! DEFINITION. The implementation parameters the spec leaves open (00_scope.md section 4). They are plain data
that State carries and no step changes, so a statement over every state is a statement over every setting. -/

namespace Sys2Proof

/-- `OVERSIZE_POLICY` (R11, R102): what a write does with data wider than the bits it stores. -/
inductive OversizePolicy where
  /-- the write raises ValueOutOfRange -/
  | reject
  /-- the write keeps the low bits -/
  | truncate
deriving DecidableEq, Repr

/-- The two parameters of the block. -/
structure Config where
  /-- `RSIZE`, the size in bytes of the generic cell R (R10). -/
  rsize  : Nat
  /-- `OVERSIZE_POLICY` (R11). -/
  policy : OversizePolicy
deriving DecidableEq, Repr

/-- R10, D27: `1 <= RSIZE <= 8`. -/
def Config.wf (c : Config) : Bool :=
  decide (1 ≤ c.rsize) && decide (c.rsize ≤ 8)

/-- The setting `State.reset` carries: RSIZE at the spec's reference value 8 (R10), OVERSIZE_POLICY = Reject.
DESIGN CHOICE (log 5): the spec keeps both open, and no statement rests on either value. -/
def Config.reference : Config := { rsize := 8, policy := .reject }

end Sys2Proof
end

