-- ==== Sys2Proof/Syntax.lean ====
section
/-! DEFINITION. The instructions: one constructor per row of spec/opcode_table.json. -/

namespace Sys2Proof

/-- The seven register cells (R20), in the order of their `rsel` numbers (R73). -/
inductive Reg where
  | pc | sp | a | x | y | p
  /-- the generic cell R (R10, R41) -/
  | gen
deriving DecidableEq, Repr

/-- A command (R72), or one of the named flag accessors, which are fixed words of FRD and FWR (R85).
`off` is the byte offset as a natural number (R74); `sel` is the requested width of RDI and WRI and the bit index of
FRD, FWR, BVG and BVS (R75). The data input is not part of the instruction (R70). -/
inductive Instr where
  /-- R91 -/
  | rdb (r : Reg) (off : Nat)
  /-- R92 -/
  | wrb (r : Reg) (off : Nat)
  /-- R103 -/
  | rdi (r : Reg) (off sel : Nat)
  /-- R104 -/
  | wri (r : Reg) (off sel : Nat)
  /-- R94 -/
  | rdv (r : Reg)
  /-- R95 -/
  | rds (r : Reg)
  /-- R126 -/
  | frd (sel : Nat)
  /-- R127 -/
  | fwr (sel : Nat)
  /-- R124 -/
  | bvg (sel : Nat)
  /-- R125 -/
  | bvs (sel : Nat)
  /-- R128 -/
  | getC
  /-- R129 -/
  | setC
  /-- R130 -/
  | getZ
  /-- R131 -/
  | setZ
  /-- R132 -/
  | getI
  /-- R133 -/
  | setI
  /-- R134 -/
  | getD
  /-- R135 -/
  | setD
  /-- R136 -/
  | getU3
  /-- R137 -/
  | setU3
  /-- R138 -/
  | getU2
  /-- R139 -/
  | setU2
  /-- R140 -/
  | getV
  /-- R141 -/
  | setV
  /-- R142 -/
  | getN
  /-- R143 -/
  | setN
deriving DecidableEq, Repr

end Sys2Proof
end

