-- ==== Sys2Proof/WellFormed.lean ====
section
/-! DEFINITION. Which instruction terms a command word can express: `off` and `sel` are 4-bit fields (R71, R74, R75).
Whether the cell has that byte, the width is legal or the bit index exists is checked at execution (R83). -/

namespace Sys2Proof

/-- A value the 4-bit fields `off` and `sel` can hold, `0..15` (R74, R75). -/
def fieldFits (n : Nat) : Bool := decide (n < 16)

/-- The operands fit their fields. -/
def Instr.wellFormed : Instr → Bool
  | .rdb _ off => fieldFits off
  | .wrb _ off => fieldFits off
  | .rdi _ off sel => fieldFits off && fieldFits sel
  | .wri _ off sel => fieldFits off && fieldFits sel
  | .rdv _ => true
  | .rds _ => true
  | .frd sel => fieldFits sel
  | .fwr sel => fieldFits sel
  | .bvg sel => fieldFits sel
  | .bvs sel => fieldFits sel
  | .getC => true
  | .setC => true
  | .getZ => true
  | .setZ => true
  | .getI => true
  | .setI => true
  | .getD => true
  | .setD => true
  | .getU3 => true
  | .setU3 => true
  | .getU2 => true
  | .setU2 => true
  | .getV => true
  | .setV => true
  | .getN => true
  | .setN => true

/-- The generic command an instruction is (R85, R88): a named flag accessor is FRD or FWR at its flag's index;
the ten commands are themselves. -/
def Instr.core : Instr → Instr
  | .rdb r off => .rdb r off
  | .wrb r off => .wrb r off
  | .rdi r off sel => .rdi r off sel
  | .wri r off sel => .wri r off sel
  | .rdv r => .rdv r
  | .rds r => .rds r
  | .frd sel => .frd sel
  | .fwr sel => .fwr sel
  | .bvg sel => .bvg sel
  | .bvs sel => .bvs sel
  | .getC => .frd 7
  | .setC => .fwr 7
  | .getZ => .frd 6
  | .setZ => .fwr 6
  | .getI => .frd 5
  | .setI => .fwr 5
  | .getD => .frd 4
  | .setD => .fwr 4
  | .getU3 => .frd 3
  | .setU3 => .fwr 3
  | .getU2 => .frd 2
  | .setU2 => .fwr 2
  | .getV => .frd 1
  | .setV => .fwr 1
  | .getN => .frd 0
  | .setN => .fwr 0

end Sys2Proof
end

