-- ==== Sys2Proof/Decode.lean ====
section
/-! DEFINITION. The command word: its fields (R71), the decoder of R83, and the encoder written from the same rules. -/

namespace Sys2Proof

/-- `W[15:12]`, the operation. -/
def opField (w : CmdWord) : Nat := (w.extractLsb' 12 4).toNat
/-- `W[11:9]`, the register select. -/
def rselField (w : CmdWord) : Nat := (w.extractLsb' 9 3).toNat
/-- `W[8]`, reserved, must be 0 (R78). -/
def zField (w : CmdWord) : Nat := (w.extractLsb' 8 1).toNat
/-- `W[7:4]`, the byte offset, zero-extended to a natural number (R74). -/
def offField (w : CmdWord) : Nat := (w.extractLsb' 4 4).toNat
/-- `W[3:0]`, the width or bit index (R75). -/
def selField (w : CmdWord) : Nat := (w.extractLsb' 0 4).toNat

/-- The cell a register-select number names (R73); 7 is reserved. -/
def Reg.ofSel : Nat → Option Reg
  | 0 => some .pc
  | 1 => some .sp
  | 2 => some .a
  | 3 => some .x
  | 4 => some .y
  | 5 => some .p
  | 6 => some .gen
  | _ => none

/-- A cell's register-select number (R73). -/
def Reg.sel : Reg → Nat
  | .pc => 0
  | .sp => 1
  | .a => 2
  | .x => 3
  | .y => 4
  | .p => 5
  | .gen => 6

/-- What a command word decodes to (R83): a command, or `Illegal`. -/
inductive Decoded where
  | command (i : Instr)
  | illegal
deriving DecidableEq, Repr

/-- The word's instruction, where it is a command. -/
def Decoded.instr? : Decoded → Option Instr
  | .command i => some i
  | .illegal => none

/-- A command on the cell `rsel` selects, legal when its must-be-zero fields hold (`ok`, R78) and `rsel <= 6` (R80). -/
def decodeOnCell (rsel : Nat) (ok : Bool) (mk : Reg → Instr) : Decoded :=
  match ok, Reg.ofSel rsel with
  | true, some r => .command (mk r)
  | _, _ => .illegal

/-- A command without a cell of its choice, legal when its fixed fields hold (`ok`). -/
def decodeFixed (ok : Bool) (i : Instr) : Decoded :=
  match ok with
  | true => .command i
  | false => .illegal

/-- R83, over the fields of the word. -/
def decodeFields (op rsel off sel : Nat) : Decoded :=
  match op with
  | 0x0 => decodeOnCell rsel (sel == 0) fun r => .rdb r off
  | 0x1 => decodeOnCell rsel (sel == 0) fun r => .wrb r off
  | 0x2 => decodeOnCell rsel true fun r => .rdi r off sel
  | 0x3 => decodeOnCell rsel true fun r => .wri r off sel
  | 0x4 => decodeOnCell rsel (off == 0 && sel == 0) .rdv
  | 0x5 => decodeOnCell rsel (off == 0 && sel == 0) .rds
  | 0x6 => decodeFixed (rsel == 5 && off == 0) (.frd sel)
  | 0x7 => decodeFixed (rsel == 5 && off == 0) (.fwr sel)
  | 0x8 => decodeFixed (rsel == 0 && off == 0) (.bvg sel)
  | 0x9 => decodeFixed (rsel == 0 && off == 0) (.bvs sel)
  | _ => .illegal

/-- The decoder (R83): total, and a function of the word alone (R89). It uses the ten generic rows (R88), so the
word of a named flag accessor decodes to FRD or FWR (log 7). -/
def decode (w : CmdWord) : Decoded :=
  if zField w = 0 then decodeFields (opField w) (rselField w) (offField w) (selField w) else .illegal

/-- `W = op<<12 | rsel<<9 | z<<8 | off<<4 | sel`, with z = 0 (R71, R78). -/
def makeWord (op rsel off sel : Nat) : CmdWord :=
  BitVec.ofNat 16 op <<< 12 ||| BitVec.ofNat 16 rsel <<< 9 ||| BitVec.ofNat 16 off <<< 4 ||| BitVec.ofNat 16 sel

/-- The word of an instruction: the ten commands from R71 to R73, the named flag accessors from the table of R85. -/
def encode : Instr → CmdWord
  | .rdb r off => makeWord 0x0 r.sel off 0
  | .wrb r off => makeWord 0x1 r.sel off 0
  | .rdi r off sel => makeWord 0x2 r.sel off sel
  | .wri r off sel => makeWord 0x3 r.sel off sel
  | .rdv r => makeWord 0x4 r.sel 0 0
  | .rds r => makeWord 0x5 r.sel 0 0
  | .frd sel => makeWord 0x6 5 0 sel
  | .fwr sel => makeWord 0x7 5 0 sel
  | .bvg sel => makeWord 0x8 0 0 sel
  | .bvs sel => makeWord 0x9 0 0 sel
  | .getC => 0x6A07#16
  | .setC => 0x7A07#16
  | .getZ => 0x6A06#16
  | .setZ => 0x7A06#16
  | .getI => 0x6A05#16
  | .setI => 0x7A05#16
  | .getD => 0x6A04#16
  | .setD => 0x7A04#16
  | .getU3 => 0x6A03#16
  | .setU3 => 0x7A03#16
  | .getU2 => 0x6A02#16
  | .setU2 => 0x7A02#16
  | .getV => 0x6A01#16
  | .setV => 0x7A01#16
  | .getN => 0x6A00#16
  | .setN => 0x7A00#16

/-- The host's question: the instruction the decoder reads from a word numbered as spec/opcode_table.json numbers it.
Every command is one 16-bit word (R82), and the table's numbering is the word's own. -/
def decodeTableWord (nbits w : Nat) : Option Instr :=
  if nbits ≤ 16 then (decode (BitVec.ofNat 16 (w % 2 ^ nbits))).instr? else none

end Sys2Proof
end

