-- ==== Sys2Proof/Machine/State.lean ====
section
/-! DEFINITION. The state: the block's seven cells, its two parameters, and the command interface. -/

namespace Sys2Proof.Machine

/-- Why a step stops with a fault: never. The block has no stop; every error of the spec is a response after which
it takes the next command (R160, R169, R170), so this closed type has no constructor (log 3). -/
inductive Fault where
deriving DecidableEq, Repr

/-- Why an instruction has no meaning. -/
inductive Refusal where
  /-- Raised by `exec` alone, for an instruction whose meaning is not written yet; none is left. Safe: it only stops. -/
  | notModelled (mnemonic : String)
deriving DecidableEq, Repr

/-- The outcomes of a command (R77, R165). -/
inductive Status where
  /-- the command succeeded -/
  | ok
  /-- R161 -/
  | unsupportedWidth
  /-- R162 -/
  | indexOutOfBounds
  /-- R163 -/
  | illegalCommand
  /-- R164 -/
  | valueOutOfRange
deriving DecidableEq, Repr

/-- The 3-bit status code (R77). -/
def Status.code : Status → BitVec 3
  | .ok => 0
  | .unsupportedWidth => 1
  | .indexOutOfBounds => 2
  | .illegalCommand => 3
  | .valueOutOfRange => 4

/-- The response to a command (R70): a status and the 64-bit read data. -/
structure Response where
  status : Status
  rdata  : Data
deriving DecidableEq, Repr

/-- What the requester presents in one step (R70): the reset input, or a command word with its data input. -/
inductive Request where
  | reset
  | command (w : CmdWord) (d : Data)
deriving DecidableEq, Repr

/-- The block's whole state (R20, R45): seven cells that share no storage (R22). The named cells have their fixed
sizes; R is the list of its bytes, RSIZE of them (R21, `State.wf`). -/
structure Cells where
  /-- `PCval` (R27, R28): byte 0 is the high byte. -/
  pc : BitVec 16
  /-- R31 -/
  sp : Byte
  /-- R25 -/
  a  : Byte
  /-- R25 -/
  x  : Byte
  /-- R25 -/
  y  : Byte
  /-- The status register, all eight bits (R33, R34). -/
  p  : Byte
  /-- The generic cell (R41), byte 0 first. -/
  r  : List Byte
deriving DecidableEq, Repr

/-- The machine's state. Only `cells` is state of the block; the others are the model's (log 1, 2, 5). -/
structure State where
  /-- The register cells (R20). -/
  cells    : Cells
  /-- The parameters (R10, R11), which no step changes. -/
  cfg      : Config
  /-- The data input as presented with the command being executed (R70, R76). -/
  d        : Data
  /-- The requests issued and not yet taken, oldest first (R64, R70). -/
  requests : List Request
  /-- The response the step just made gave, if it gave one (R70, R180). -/
  response : Option Response
deriving DecidableEq, Repr

/-- R180, R181: every byte of every cell is 0x00; R has RSIZE bytes. -/
def Cells.zero (rsize : Nat) : Cells :=
  { pc := 0#16, sp := 0#8, a := 0#8, x := 0#8, y := 0#8, p := 0#8, r := List.replicate rsize 0#8 }

/-- The machine right after reset under the parameters `c` (R180, R181), with nothing presented to it yet
(DESIGN CHOICE for the interface's fields: log 1, 2). -/
def State.initial (c : Config) : State :=
  { cells := Cells.zero c.rsize, cfg := c, d := 0#64, requests := [], response := none }

/-- The machine right after reset, at the reference parameters (DESIGN CHOICE for the parameters: log 5). -/
def State.reset : State := State.initial Config.reference

/-- R10 and R21: RSIZE is legal, and the bytes of R are RSIZE many ("Invariant: `bytes.length == size`"). -/
def State.wf (s : State) : Bool :=
  s.cfg.wf && decide (s.cells.r.length = s.cfg.rsize)

/-- What a meaning answers. -/
abbrev Result := Host.Outcome State Fault Refusal

end Sys2Proof.Machine
end

