-- ==== Sys2Proof/Machine/Ops.lean ====
section
/-! DEFINITION. The shared operations: the cells' bytes and big-endian integers, responding, raising an error, reset. -/

namespace Sys2Proof.Machine

/-- `size(r)` (R20, R21). -/
def cellSize (c : Config) : Reg → Nat
  | .pc => 2
  | .sp => 1
  | .a => 1
  | .x => 1
  | .y => 1
  | .p => 1
  | .gen => c.rsize

/-- `buf(r)`, byte 0 first (R15, R28). -/
def buf (c : Cells) : Reg → List Byte
  | .pc => [c.pc.extractLsb' 8 8, c.pc.extractLsb' 0 8]
  | .sp => [c.sp]
  | .a => [c.a]
  | .x => [c.x]
  | .y => [c.y]
  | .p => [c.p]
  | .gen => c.r

/-- The cells with `buf(r)` replaced by `bs`, a sequence of the same length; no other cell changes (R22). -/
def setBuf (c : Cells) (r : Reg) (bs : List Byte) : Cells :=
  match r with
  | .pc => { c with pc := bs.getD 0 0#8 ++ bs.getD 1 0#8 }
  | .sp => { c with sp := bs.getD 0 0#8 }
  | .a => { c with a := bs.getD 0 0#8 }
  | .x => { c with x := bs.getD 0 0#8 }
  | .y => { c with y := bs.getD 0 0#8 }
  | .p => { c with p := bs.getD 0 0#8 }
  | .gen => { c with r := bs }

/-- `ByteRead(r, k)` (R15), for `k < size(r)`; the callers check the bound first. -/
def byteRead (c : Cells) (r : Reg) (k : Nat) : Byte := (buf c r).getD k 0#8

/-- `ByteWrite(r, k, b)` (R15): every other byte of every cell is unchanged. -/
def byteWrite (c : Cells) (r : Reg) (k : Nat) (b : Byte) : Cells := setBuf c r ((buf c r).set k b)

/-- `b0 ++ b1 ++ ...`, the first byte most significant, zero-extended to 64 bits (R51, R52). -/
def concatBytes (bs : List Byte) : Data := bs.foldl (fun acc b => acc <<< 8 ||| b.setWidth 64) 0#64

/-- The `n` bytes of an n-byte value, the most significant first: byte k is `v[8(n-k)-1 : 8(n-k)-8]` (R53). -/
def bytesOf : Nat → Data → List Byte
  | 0, _ => []
  | n + 1, v => v.extractLsb' (8 * n) 8 :: bytesOf n v

/-- Store bytes one after another from offset `off`: the loop of R53. -/
def storeBytes (bs : List Byte) (off : Nat) : List Byte → List Byte
  | [] => bs
  | b :: rest => storeBytes (bs.set off b) (off + 1) rest

/-- `MemRead(r, off, n)` (R52), for `off + n <= size(r)`. -/
def memRead (c : Cells) (r : Reg) (off n : Nat) : Data := concatBytes (((buf c r).drop off).take n)

/-- `MemWrite(r, off, n, v)` (R53), for `off + n <= size(r)`. -/
def memWrite (c : Cells) (r : Reg) (off n : Nat) (v : Data) : Cells :=
  setBuf c r (storeBytes (buf c r) off (bytesOf n v))

/-- `respond(v)` (R15): status OK and read data `v`. -/
def respond (v : Data) (s : State) : Result := .next { s with response := some ⟨.ok, v⟩ }

/-- `raise E` (R15, R160): the command ends with status E and rdata 0, and writes nothing. This is how the block
takes an error: it saves nothing and goes nowhere (R169), and the "return" is the next command (R170). -/
def raise (e : Status) (s : State) : Result := .next { s with response := some ⟨e, 0#64⟩ }

/-- A Boolean result as read data: 1 or 0 (R124, R126). -/
def boolData (b : Bool) : Data := if b then 1#64 else 0#64

/-- The state in which the command at the head of the requests executes: the request is taken and `d` is its data. -/
def accept (d : Data) (rest : List Request) (s : State) : State := { s with d := d, requests := rest }

/-- The reset input (R180): every byte of every cell to 0x00, sizes as they are; no response. -/
def takeReset (rest : List Request) (s : State) : Result :=
  .next { s with cells := Cells.zero s.cfg.rsize, requests := rest, response := none }

/-- Nothing is presented: no cell changes and no response is given (log 4). -/
def idle (s : State) : Result := .next { s with response := none }

end Sys2Proof.Machine
end

