-- ==== Sys2Proof/Machine/Operands.lean ====
section
/-! DEFINITION. The operand rules: the effective width, the legal widths and the oversize check. -/

namespace Sys2Proof.Machine

/-- `legal(n)` (R100). -/
def legalWidth (n : Nat) : Bool := n == 1 || n == 2 || n == 4 || n == 8

/-- `eff_w(rsel, sel)` (R101): PC and SP use their own size (R105, R107), the others the caller's width. -/
def effWidth (r : Reg) (sel : Nat) : Nat :=
  match r with
  | .pc => 2
  | .sp => 1
  | .a => sel
  | .x => sel
  | .y => sel
  | .p => sel
  | .gen => sel

/-- `fit(d, m)` (R102): the m-bit value a write of m bits stores (zero-extended), or none where it raises. -/
def fit (policy : OversizePolicy) (d : Data) (m : Nat) : Option Data :=
  if m = 64 ∨ d >>> m = 0#64 then some ((d.setWidth m).setWidth 64)
  else match policy with
    | .reject => none
    | .truncate => some ((d.setWidth m).setWidth 64)

/-- Go on with `fit(d, m)`, or raise ValueOutOfRange (R102, R164). -/
def withFit (m : Nat) (s : State) (go : Data → Result) : Result :=
  match fit s.cfg.policy s.d m with
  | some v => go v
  | none => raise .valueOutOfRange s

/-- The checks RDI and WRI share, in the order of R116: the width, then the bounds. -/
def withWidth (r : Reg) (off sel : Nat) (s : State) (go : Nat → Result) : Result :=
  if legalWidth (effWidth r sel) then
    if cellSize s.cfg r < off + effWidth r sel then raise .indexOutOfBounds s else go (effWidth r sel)
  else raise .unsupportedWidth s

/-- The bounds check of RDB and WRB (R93). -/
def withByte (r : Reg) (off : Nat) (s : State) (go : Result) : Result :=
  if cellSize s.cfg r ≤ off then raise .indexOutOfBounds s else go

/-- The bit-index check of FRD, FWR, BVG and BVS (R122). -/
def withBit (i : Nat) (s : State) (go : Result) : Result :=
  if 7 < i then raise .indexOutOfBounds s else go

end Sys2Proof.Machine
end

