-- ==== Sys2Proof/Machine/Flags.lean ====
section
/-! DEFINITION. BitView, and the flag decoder of the status register P. -/

namespace Sys2Proof.Machine

/-- `bv_get(b, i)` (R120): bit i is set in b. -/
def bvGet (b : Byte) (i : Nat) : Bool := (b &&& (1#8 <<< i)) != 0#8

/-- `bv_set(b, i, v)` (R121): b with bit i forced to v. -/
def bvSet (b : Byte) (i : Nat) (v : Bool) : Byte := if v then b ||| (1#8 <<< i) else b &&& ~~~(1#8 <<< i)

/-- The eight flags of P (R34). -/
inductive StatusFlag where
  | carry | zero | interruptDisable | decimal | unusedHigh | unusedLow | overflow | negative
deriving DecidableEq, Repr

/-- The bit index of a flag (R34). -/
def StatusFlag.index : StatusFlag → Nat
  | .carry => 7
  | .zero => 6
  | .interruptDisable => 5
  | .decimal => 4
  | .unusedHigh => 3
  | .unusedLow => 2
  | .overflow => 1
  | .negative => 0

/-- The mask of a flag (R34). -/
def StatusFlag.mask : StatusFlag → Byte
  | .carry => 0x80#8
  | .zero => 0x40#8
  | .interruptDisable => 0x20#8
  | .decimal => 0x10#8
  | .unusedHigh => 0x08#8
  | .unusedLow => 0x04#8
  | .overflow => 0x02#8
  | .negative => 0x01#8

/-- The flag as the status byte holds it. -/
def flagOf (b : Byte) (f : StatusFlag) : Bool := (b &&& f.mask) != 0#8

/-- The eight flags as a tuple (R147). -/
structure FlagSet where
  c : Bool
  z : Bool
  i : Bool
  d : Bool
  u3 : Bool
  u2 : Bool
  v : Bool
  n : Bool
deriving DecidableEq, Repr

/-- The flag decoder as a combinational function (R147). -/
def flagsOfByte (b : Byte) : FlagSet :=
  { c := b.getLsbD 7, z := b.getLsbD 6, i := b.getLsbD 5, d := b.getLsbD 4,
    u3 := b.getLsbD 3, u2 := b.getLsbD 2, v := b.getLsbD 1, n := b.getLsbD 0 }

/-- One flag at its place in the byte. -/
def flagBit (b : Bool) (i : Nat) : Byte := (if b then 1#8 else 0#8) <<< i

/-- `b = C<<7 | Z<<6 | I<<5 | D<<4 | U3<<3 | U2<<2 | V<<1 | N` (R147). -/
def byteOfFlags (f : FlagSet) : Byte :=
  flagBit f.c 7 ||| flagBit f.z 6 ||| flagBit f.i 5 ||| flagBit f.d 4 |||
    flagBit f.u3 3 ||| flagBit f.u2 2 ||| flagBit f.v 1 ||| flagBit f.n 0

/-- Write the computed status byte back into `buf(P)[0]`: every flag write persists (R123). -/
def storeStatus (b : Byte) (s : State) : State := { s with cells := byteWrite s.cells .p 0 b }

/-- A named getter (R128 to R142): the bit of P as read data. -/
def readNamedFlag (i : Nat) (s : State) : Result := respond (boolData ((byteRead s.cells .p 0).getLsbD i)) s

/-- A named setter (R129 to R143): with `v = fit(d, 1)`, P is or-ed with the flag's mask, or and-ed with its complement. -/
def writeNamedFlag (setMask clearMask : Byte) (s : State) : Result :=
  withFit 1 s fun v =>
    respond 0#64
      (storeStatus
        (if v = 1#64 then byteRead s.cells .p 0 ||| setMask else byteRead s.cells .p 0 &&& clearMask) s)

end Sys2Proof.Machine
end

