-- ==== Sys2Proof/Machine/BitView.lean ====
section
/-! DEFINITION. BVG, BVS, FRD and FWR (42_bitview_and_flags.md sections 2 and 3). -/

namespace Sys2Proof.Machine

/-- FRD (R126): flag i of P. -/
def execFrd (i : Nat) (s : State) : Result :=
  withBit i s (respond (boolData (bvGet (byteRead s.cells .p 0) i)) s)

/-- FWR (R127): flag i of P takes `fit(d, 1)`, and the byte is written back. -/
def execFwr (i : Nat) (s : State) : Result :=
  withBit i s
    (withFit 1 s fun v => respond 0#64 (storeStatus (bvSet (byteRead s.cells .p 0) i (v = 1#64)) s))

/-- BVG (R124): bit i of the byte `fit(d, 8)`. -/
def execBvg (i : Nat) (s : State) : Result :=
  withBit i s (withFit 8 s fun b => respond (boolData (bvGet (b.setWidth 8) i)) s)

/-- BVS (R125): with `x = fit(d, 9)`, the byte `x[7:0]` with bit i forced to `x[8]`. -/
def execBvs (i : Nat) (s : State) : Result :=
  withBit i s
    (withFit 9 s fun x => respond ((bvSet (x.setWidth 8) i (x.getLsbD 8)).setWidth 64) s)

end Sys2Proof.Machine
end

