-- ==== Sys2Proof/Machine/ByteAccess.lean ====
section
/-! DEFINITION. RDB, WRB, RDV and RDS (40_byte_access.md). -/

namespace Sys2Proof.Machine

/-- RDB (R91): byte `off` of the cell. -/
def execRdb (r : Reg) (off : Nat) (s : State) : Result :=
  withByte r off s (respond ((byteRead s.cells r off).setWidth 64) s)

/-- WRB (R92): byte `off` of the cell takes `fit(d, 8)`. -/
def execWrb (r : Reg) (off : Nat) (s : State) : Result :=
  withByte r off s
    (withFit 8 s fun b => respond 0#64 { s with cells := byteWrite s.cells r off (b.setWidth 8) })

/-- RDV (R94): every byte of the cell, big-endian. -/
def execRdv (r : Reg) (s : State) : Result := respond (concatBytes (buf s.cells r)) s

/-- RDS (R95): the size of the cell. -/
def execRds (r : Reg) (s : State) : Result := respond (BitVec.ofNat 64 (cellSize s.cfg r)) s

end Sys2Proof.Machine
end

