-- ==== Sys2Proof/Machine/MultiWidth.lean ====
section
/-! DEFINITION. RDI and WRI, the multi-width accessor mux (41_multiwidth_access.md). -/

namespace Sys2Proof.Machine

/-- RDI (R103): the unsigned big-endian integer of `eff_w` bytes at `off`. -/
def execRdi (r : Reg) (off sel : Nat) (s : State) : Result :=
  withWidth r off sel s fun n => respond (memRead s.cells r off n) s

/-- WRI (R104): `fit(d, 8n)` as `n = eff_w` bytes at `off`. -/
def execWri (r : Reg) (off sel : Nat) (s : State) : Result :=
  withWidth r off sel s fun n =>
    withFit (8 * n) s fun v => respond 0#64 { s with cells := memWrite s.cells r off n v }

end Sys2Proof.Machine
end

