-- ==== Sys2Proof/Machine/NamedFlags.lean ====
section
/-! DEFINITION. The sixteen named flag accessors (42_bitview_and_flags.md section 4), each from its own rule. -/

namespace Sys2Proof.Machine

/-- GET_C (R128): the carry flag, bit 7 of P. -/
def execGetC (s : State) : Result := readNamedFlag 7 s

/-- SET_C (R129): the carry flag takes `fit(d, 1)`. -/
def execSetC (s : State) : Result := writeNamedFlag 0x80#8 0x7F#8 s

/-- GET_Z (R130): the zero flag, bit 6 of P. -/
def execGetZ (s : State) : Result := readNamedFlag 6 s

/-- SET_Z (R131): the zero flag takes `fit(d, 1)`. -/
def execSetZ (s : State) : Result := writeNamedFlag 0x40#8 0xBF#8 s

/-- GET_I (R132): the interrupt-disable flag, bit 5 of P. -/
def execGetI (s : State) : Result := readNamedFlag 5 s

/-- SET_I (R133): the interrupt-disable flag takes `fit(d, 1)`. -/
def execSetI (s : State) : Result := writeNamedFlag 0x20#8 0xDF#8 s

/-- GET_D (R134): the decimal-mode flag, bit 4 of P. -/
def execGetD (s : State) : Result := readNamedFlag 4 s

/-- SET_D (R135): the decimal-mode flag takes `fit(d, 1)`. -/
def execSetD (s : State) : Result := writeNamedFlag 0x10#8 0xEF#8 s

/-- GET_U3 (R136): the unused (high) flag, bit 3 of P. -/
def execGetU3 (s : State) : Result := readNamedFlag 3 s

/-- SET_U3 (R137): the unused (high) flag takes `fit(d, 1)`. -/
def execSetU3 (s : State) : Result := writeNamedFlag 0x08#8 0xF7#8 s

/-- GET_U2 (R138): the unused (low) flag, bit 2 of P. -/
def execGetU2 (s : State) : Result := readNamedFlag 2 s

/-- SET_U2 (R139): the unused (low) flag takes `fit(d, 1)`. -/
def execSetU2 (s : State) : Result := writeNamedFlag 0x04#8 0xFB#8 s

/-- GET_V (R140): the overflow flag, bit 1 of P. -/
def execGetV (s : State) : Result := readNamedFlag 1 s

/-- SET_V (R141): the overflow flag takes `fit(d, 1)`. -/
def execSetV (s : State) : Result := writeNamedFlag 0x02#8 0xFD#8 s

/-- GET_N (R142): the negative flag, bit 0 of P. -/
def execGetN (s : State) : Result := readNamedFlag 0 s

/-- SET_N (R143): the negative flag takes `fit(d, 1)`. -/
def execSetN (s : State) : Result := writeNamedFlag 0x01#8 0xFE#8 s

end Sys2Proof.Machine
end

