-- ==== Sys2Proof/Machine/Dispatch.lean ====
section
/-! DEFINITION. One arm per instruction, each one call of its meaning. -/

namespace Sys2Proof.Machine

def exec (i : Instr) (s : State) : Host.Outcome State Fault Refusal :=
  match i with
  | .rdb r off => Sys2Proof.Machine.execRdb r off s
  | .wrb r off => Sys2Proof.Machine.execWrb r off s
  | .rdi r off sel => Sys2Proof.Machine.execRdi r off sel s
  | .wri r off sel => Sys2Proof.Machine.execWri r off sel s
  | .rdv r => Sys2Proof.Machine.execRdv r s
  | .rds r => Sys2Proof.Machine.execRds r s
  | .frd sel => Sys2Proof.Machine.execFrd sel s
  | .fwr sel => Sys2Proof.Machine.execFwr sel s
  | .bvg sel => Sys2Proof.Machine.execBvg sel s
  | .bvs sel => Sys2Proof.Machine.execBvs sel s
  | .getC => Sys2Proof.Machine.execGetC s
  | .setC => Sys2Proof.Machine.execSetC s
  | .getZ => Sys2Proof.Machine.execGetZ s
  | .setZ => Sys2Proof.Machine.execSetZ s
  | .getI => Sys2Proof.Machine.execGetI s
  | .setI => Sys2Proof.Machine.execSetI s
  | .getD => Sys2Proof.Machine.execGetD s
  | .setD => Sys2Proof.Machine.execSetD s
  | .getU3 => Sys2Proof.Machine.execGetU3 s
  | .setU3 => Sys2Proof.Machine.execSetU3 s
  | .getU2 => Sys2Proof.Machine.execGetU2 s
  | .setU2 => Sys2Proof.Machine.execSetU2 s
  | .getV => Sys2Proof.Machine.execGetV s
  | .setV => Sys2Proof.Machine.execSetV s
  | .getN => Sys2Proof.Machine.execGetN s
  | .setN => Sys2Proof.Machine.execSetN s

end Sys2Proof.Machine
end

