-- ==== Sys2Proof/Machine/Step.lean ====
section
/-! DEFINITION. One step: take the oldest request and answer it (R64, R70). -/

namespace Sys2Proof.Machine

/-- One step. A command word is decoded before anything is executed (R167); an illegal one raises IllegalCommand
(R163); the reset input takes no word and gives no response (R180). -/
def step (s : State) : Host.Outcome State Fault Refusal :=
  match s.requests with
  | [] => idle s
  | .reset :: rest => takeReset rest s
  | .command w d :: rest =>
    match decode w with
    | .command i => exec i (accept d rest s)
    | .illegal => raise .illegalCommand (accept d rest s)

/-- The host's question: the word of one command, presented as the next request, with the data input as it stands.
Commands come from the requester, not from a program memory (R29, R67; log 8). -/
def State.withFetchWord (s : State) (nbits w : Nat) : State :=
  { s with requests := .command (BitVec.ofNat 16 (w % 2 ^ nbits)) s.d :: s.requests }

end Sys2Proof.Machine
end

