-- ==== Sys2Proof/Machine/Assembler.lean ====
section
/-! DEFINITION. The assembler forms of 30_encoding.md section 6, as structured lines: default arguments (R86) and the
short and long spellings of the named flag accessors (R85, R144). -/

namespace Sys2Proof.Machine

/-- One line (R84). A width `none` is an omitted width operand; a named accessor carries its spelling. -/
inductive AsmLine where
  | rdb (r : Reg) (off : Nat)
  | wrb (r : Reg) (off : Nat) (v : Data)
  | rdi (r : Reg) (off : Nat) (w : Option Nat)
  | wri (r : Reg) (off : Nat) (w : Option Nat) (v : Data)
  | rdv (r : Reg)
  | rds (r : Reg)
  | frd (i : Nat)
  | fwr (i : Nat) (b : Data)
  | bvg (v : Data) (i : Nat)
  | bvs (v : Byte) (i : Nat) (b : Bool)
  /-- `GET_x`, short or long spelling, no operand -/
  | getter (name : String)
  /-- `SET_x #b`, short or long spelling -/
  | setter (name : String) (b : Data)
deriving DecidableEq, Repr

/-- The getters of R85: short spelling, long spelling, instruction. -/
def getterTable : List (String × String × Instr) :=
  [("GET_C", "GET_carryFlag", .getC), ("GET_Z", "GET_zeroFlag", .getZ), ("GET_I", "GET_interruptFlag", .getI),
   ("GET_D", "GET_decimalFlag", .getD), ("GET_U3", "GET_unusedHighFlag", .getU3),
   ("GET_U2", "GET_unusedLowFlag", .getU2), ("GET_V", "GET_overflowFlag", .getV), ("GET_N", "GET_negativeFlag", .getN)]

/-- The setters of R85: short spelling, long spelling, instruction. -/
def setterTable : List (String × String × Instr) :=
  [("SET_C", "SET_carryFlag", .setC), ("SET_Z", "SET_zeroFlag", .setZ), ("SET_I", "SET_interruptFlag", .setI),
   ("SET_D", "SET_decimalFlag", .setD), ("SET_U3", "SET_unusedHighFlag", .setU3),
   ("SET_U2", "SET_unusedLowFlag", .setU2), ("SET_V", "SET_overflowFlag", .setV), ("SET_N", "SET_negativeFlag", .setN)]

/-- The instruction a spelling names in a table. -/
def lookupName (table : List (String × String × Instr)) (name : String) : Option Instr :=
  (table.find? fun row => row.1 == name || row.2.1 == name).map fun row => row.2.2

/-- The width operand: it may be omitted on PC and SP only, and assembles as 0 there (R84, R86). -/
def widthOperand (r : Reg) (w : Option Nat) : Option Nat :=
  match w, r with
  | some n, _ => some n
  | none, .pc => some 0
  | none, .sp => some 0
  | none, _ => none

/-- The instruction and the data input of a line. `BVS` places b in d[8] and v in d[7:0] (R84); a line without data has
d = 0. -/
def AsmLine.parts : AsmLine → Option (Instr × Data)
  | .rdb r off => some (.rdb r off, 0#64)
  | .wrb r off v => some (.wrb r off, v)
  | .rdi r off w => (widthOperand r w).map fun n => (.rdi r off n, 0#64)
  | .wri r off w v => (widthOperand r w).map fun n => (.wri r off n, v)
  | .rdv r => some (.rdv r, 0#64)
  | .rds r => some (.rds r, 0#64)
  | .frd i => some (.frd i, 0#64)
  | .fwr i b => some (.fwr i, b)
  | .bvg v i => some (.bvg i, v)
  | .bvs v i b => some (.bvs i, boolData b <<< 8 ||| v.setWidth 64)
  | .getter name => (lookupName getterTable name).map fun i => (i, 0#64)
  | .setter name b => (lookupName setterTable name).map fun i => (i, b)

/-- The request a line assembles to; none where the line is no line of R84 (an operand above 15, an unknown name, an
omitted width on another cell). -/
def assemble (l : AsmLine) : Option Request :=
  match l.parts with
  | some (i, d) => if i.wellFormed then some (.command (encode i) d) else none
  | none => none

end Sys2Proof.Machine
end

