-- ==== Sys2Proof/Safety.lean ====
section
/-! DEFINITION. What counts as a safe run: no command returned an error (R173), and the size invariant holds (R21). -/

namespace Sys2Proof

/-- The cell an instruction may write (R59, R61, R125): none for the ones that only read or compute. -/
def Instr.writes : Instr → Option Reg
  | .rdb _ _ => none
  | .wrb r _ => some r
  | .rdi _ _ _ => none
  | .wri r _ _ => some r
  | .rdv _ => none
  | .rds _ => none
  | .frd _ => none
  | .fwr _ => some .p
  | .bvg _ => none
  | .bvs _ => none
  | .getC => none
  | .setC => some .p
  | .getZ => none
  | .setZ => some .p
  | .getI => none
  | .setI => some .p
  | .getD => none
  | .setD => some .p
  | .getU3 => none
  | .setU3 => some .p
  | .getU2 => none
  | .setU2 => some .p
  | .getV => none
  | .setV => some .p
  | .getN => none
  | .setN => some .p

/-- How many low bits of the data input an instruction takes (R76): none for one that ignores `d`. -/
def Instr.dataBits : Instr → Option Nat
  | .rdb _ _ => none
  | .wrb _ _ => some 8
  | .rdi _ _ _ => none
  | .wri r _ sel => some (8 * Machine.effWidth r sel)
  | .rdv _ => none
  | .rds _ => none
  | .frd _ => none
  | .fwr _ => some 1
  | .bvg _ => some 8
  | .bvs _ => some 9
  | .getC => none
  | .setC => some 1
  | .getZ => none
  | .setZ => some 1
  | .getI => none
  | .setI => some 1
  | .getD => none
  | .setD => some 1
  | .getU3 => none
  | .setU3 => some 1
  | .getU2 => none
  | .setU2 => some 1
  | .getV => none
  | .setV => some 1
  | .getN => none
  | .setN => some 1

end Sys2Proof

namespace Sys2Proof.Machine

/-- The step just made reported an error: what R173 calls a programmer error of the consuming execution engine. -/
def State.errored (s : State) : Bool :=
  match s.response with
  | some resp => decide (resp.status ≠ .ok)
  | none => false

/-- `k` steps from `s`, none of which stops or reports an error: the premise of a claim about a program (R173). -/
def runsClean : Nat → State → Bool
  | 0, _ => true
  | k + 1, s =>
    match step s with
    | .next t => !t.errored && runsClean k t
    | .fault _ => false
    | .refused _ => false

end Sys2Proof.Machine
end

