-- ==== Sys2Proof/Certificates/Slice0/Obligations.lean ====
section
/-! DEFINITION. The statements. In them, `buf s.cells r` is the byte sequence of cell r, `(buf s.cells r)[k]?` its byte
k, `s.d` the data input of the command, and a whole next state is written out where the rule gives it. -/

open Sys2Proof Sys2Proof.Machine

/-! ## Reset and the size invariant -/

/-- R181: after reset PC, SP, A, X, Y and P are zero, every flag is clear, R is RSIZE zero bytes, and the sizes are
2, 1, 1, 1, 1, 1 and RSIZE; for every setting of the parameters. -/
def Obligations.ResetLeavesEveryCellZero : Prop :=
  ∀ (c : Config),
    buf (State.initial c).cells .pc = [0x00#8, 0x00#8] ∧ (State.initial c).cells.pc = 0x0000#16 ∧
    buf (State.initial c).cells .sp = [0x00#8] ∧ buf (State.initial c).cells .a = [0x00#8] ∧
    buf (State.initial c).cells .x = [0x00#8] ∧ buf (State.initial c).cells .y = [0x00#8] ∧
    buf (State.initial c).cells .p = [0x00#8] ∧
    (∀ f, flagOf (State.initial c).cells.p f = false) ∧
    buf (State.initial c).cells .gen = List.replicate c.rsize 0x00#8 ∧
    (Reg.pc :: [.sp, .a, .x, .y, .p, .gen]).map (cellSize (State.initial c).cfg) = [2, 1, 1, 1, 1, 1, c.rsize] ∧
    State.reset = State.initial State.reset.cfg

/-- R24 for the reset input (R180), from any state: every cell is all zero bits at its size, the parameters and the
requests still to come are as they were, and reset gives no response. -/
def Obligations.ResetInputZeroesEveryCell : Prop :=
  ∀ (s : State) (rest : List Request), s.requests = .reset :: rest →
    ∃ t, step s = .next t ∧ (∀ r, buf t.cells r = List.replicate (cellSize s.cfg r) 0x00#8) ∧
      t.cfg = s.cfg ∧ t.requests = rest ∧ t.response = none

/-- The size invariant of R21 holds after reset, at every legal RSIZE (R10). That `State.reset` carries RSIZE = 8 is the
model's choice (log 5). -/
def Obligations.ResetMeetsSizeInvariant : Prop :=
  State.reset.wf = true ∧ ∀ c : Config, c.wf = true → (State.initial c).wf = true

/-- R21: in a state that meets the invariant every cell holds exactly `size(r)` bytes, and every step keeps the
invariant, the parameters and so every size. -/
def Obligations.StepKeepsEveryCellAtItsSize : Prop :=
  ∀ s t : State, s.wf = true → step s = .next t →
    t.wf = true ∧ t.cfg = s.cfg ∧
    ∀ r, (buf s.cells r).length = cellSize s.cfg r ∧ (buf t.cells r).length = (buf s.cells r).length

/-- From a state that meets the size invariant, any number of steps over any requests runs to a next state, which meets
it too, with the same parameters: the block never stops (R170, R184). A step taken when no request is left is an idle
step, which is the model's choice (log 4): such steps count towards `k`, and change neither a cell nor the requests. -/
def Obligations.RunNeverStopsAndKeepsSizes : Prop :=
  ∀ (k : Nat) (s : State), s.wf = true →
    ∃ t : State, core.run k s = .next t ∧ t.wf = true ∧ t.cfg = s.cfg ∧ t.requests = s.requests.drop k

/-! ## The step and the encoding -/

/-- A step takes the oldest request: a command word that decodes runs its instruction with its data input presented,
and with nothing presented no cell changes (the idle step is the model's choice, log 4). -/
def Obligations.StepRunsTheDecodedCommand : Prop :=
  (∀ (s : State) (w : CmdWord) (d : Data) (rest : List Request) (i : Instr),
    s.requests = .command w d :: rest → decode w = .command i →
    step s = exec i { s with d := d, requests := rest }) ∧
  (∀ s : State, s.requests = [] → step s = .next { s with response := none })

/-- The word the host presents is the one the next step runs, in the state as it stands. -/
def Obligations.PresentedWordRunsNext : Prop :=
  ∀ (s : State) (w : Nat) (i : Instr), decodeTableWord 16 w = some i →
    step (s.withFetchWord 16 w) = exec i s

/-- Each step answers a next state, takes exactly one request, and responds exactly when it took a command (R70). -/
def Obligations.OneResponsePerCommand : Prop :=
  ∀ s : State, ∃ t, step s = .next t ∧ t.requests = s.requests.tail ∧
    (t.response.isSome = true ↔ ∃ w d rest, s.requests = .command w d :: rest)

/-- R78, R79, R80, R163: with op = W[15:12], rsel = W[11:9], z = W[8], off = W[7:4], sel = W[3:0], a word with a
reserved opcode, rsel = 7, a non-zero must-be-zero field, or FRD or FWR on another cell than P gives IllegalCommand
with rdata 0 and changes no cell; every other word decodes to a command. -/
def Obligations.IllegalWordsRaiseIllegalCommand : Prop :=
  ∀ (s : State) (w : CmdWord) (d : Data) (rest : List Request) (op rsel z off sel : Nat),
    s.requests = .command w d :: rest →
    op = w.toNat / 4096 → rsel = w.toNat / 512 % 8 → z = w.toNat / 256 % 2 → off = w.toNat / 16 % 16 →
    sel = w.toNat % 16 →
    ((op ≥ 0xA ∨ rsel = 7 ∨ z ≠ 0 ∨ ((op = 6 ∨ op = 7) ∧ rsel ≠ 5) ∨ ((op = 0 ∨ op = 1) ∧ sel ≠ 0) ∨
        ((op = 4 ∨ op = 5) ∧ (off ≠ 0 ∨ sel ≠ 0)) ∨ ((op = 6 ∨ op = 7) ∧ off ≠ 0) ∨
        ((op = 8 ∨ op = 9) ∧ (rsel ≠ 0 ∨ off ≠ 0))) →
      step s = .next { s with d := d, requests := rest, response := some ⟨.illegalCommand, 0#64⟩ }) ∧
    (¬(op ≥ 0xA ∨ rsel = 7 ∨ z ≠ 0 ∨ ((op = 6 ∨ op = 7) ∧ rsel ≠ 5) ∨ ((op = 0 ∨ op = 1) ∧ sel ≠ 0) ∨
        ((op = 4 ∨ op = 5) ∧ (off ≠ 0 ∨ sel ≠ 0)) ∨ ((op = 6 ∨ op = 7) ∧ off ≠ 0) ∨
        ((op = 8 ∨ op = 9) ∧ (rsel ≠ 0 ∨ off ≠ 0))) →
      ∃ i, decode w = .command i)

/-- R81: of the 65,536 command words exactly 3886 are legal: 7·16 each of RDB and WRB, 7·16·16 each of RDI and WRI,
7 each of RDV and RDS, 16 each of FRD, FWR, BVG and BVS, none with op 0xA to 0xF. -/
def Obligations.LegalWordCounts : Prop :=
  ∀ legalWithOp : Nat → Nat,
    (∀ op, legalWithOp op =
      (List.range 4096).countP fun n => (decode (BitVec.ofNat 16 (4096 * op + n))).instr?.isSome) →
    (List.range 16).map legalWithOp =
      [7 * 16, 7 * 16, 7 * 16 * 16, 7 * 16 * 16, 7, 7, 16, 16, 16, 16, 0, 0, 0, 0, 0, 0] ∧
    ((List.range 16).map legalWithOp).sum = 3886

/-- R87: the worked encodings, each a word written out from R71 to R73. -/
def Obligations.SpecWordsDecode : Prop :=
  decode 0x0010#16 = .command (.rdb .pc 1) ∧ decode 0x1400#16 = .command (.wrb .a 0) ∧
  decode 0x2C22#16 = .command (.rdi .gen 2 2) ∧ decode 0x3C08#16 = .command (.wri .gen 0 8) ∧
  decode 0x3000#16 = .command (.wri .pc 0 0) ∧ decode 0x4A00#16 = .command (.rdv .p) ∧
  decode 0x5000#16 = .command (.rds .pc) ∧ decode 0x6A06#16 = .command (.frd 6) ∧
  decode 0x7A00#16 = .command (.fwr 0) ∧ decode 0x8007#16 = .command (.bvg 7) ∧
  decode 0x9003#16 = .command (.bvs 3) ∧ decode 0x3C03#16 = .command (.wri .gen 0 3) ∧
  decode 0x0210#16 = .command (.rdb .sp 1) ∧ decode 0xA000#16 = .illegal

/-- Decode and encode agree: for every instruction whose operands fit their fields, the decoder reads back its generic
command. For the ten commands that is the instruction itself. For a named flag accessor it is the FRD or FWR it expands
to, since "A decoder uses the ten generic rows" (R88); that reading is the model's, log 7. -/
def Obligations.DecodeOfEncode : Prop :=
  ∀ i : Instr, i.wellFormed = true →
    decode (encode i) = .command i.core ∧ i.core.wellFormed = true ∧ i.core.core = i.core

/-- Each legal word is the word of the one command it decodes to, and that command's operands fit their fields. -/
def Obligations.EncodeOfDecode : Prop :=
  ∀ (w : CmdWord) (i : Instr), decode w = .command i → encode i = w ∧ i.wellFormed = true ∧ i.core = i

/-- A named flag accessor has the word and the effect, in every state, of the FRD or FWR at its flag's index
(R85, 42_bitview_and_flags.md section 4). -/
def Obligations.NamedAccessorsActAsTheirExpansion : Prop :=
  ∀ (i : Instr) (s : State), encode i = encode i.core ∧ exec i s = exec i.core s

/-- R85: the short and the long spelling of every named accessor assemble to the one fixed word of the table, which is
the word of the FRD or FWR it expands to. -/
def Obligations.SpellingsAssembleToFixedWords : Prop :=
  (∀ row ∈ [("GET_C", "GET_carryFlag", 7, 0x6A07#16), ("GET_Z", "GET_zeroFlag", 6, 0x6A06#16),
      ("GET_I", "GET_interruptFlag", 5, 0x6A05#16), ("GET_D", "GET_decimalFlag", 4, 0x6A04#16),
      ("GET_U3", "GET_unusedHighFlag", 3, 0x6A03#16), ("GET_U2", "GET_unusedLowFlag", 2, 0x6A02#16),
      ("GET_V", "GET_overflowFlag", 1, 0x6A01#16), ("GET_N", "GET_negativeFlag", 0, 0x6A00#16)],
    assemble (.getter row.1) = some (.command row.2.2.2 0#64) ∧
    assemble (.getter row.2.1) = some (.command row.2.2.2 0#64) ∧
    assemble (.frd row.2.2.1) = some (.command row.2.2.2 0#64)) ∧
  (∀ row ∈ [("SET_C", "SET_carryFlag", 7, 0x7A07#16), ("SET_Z", "SET_zeroFlag", 6, 0x7A06#16),
      ("SET_I", "SET_interruptFlag", 5, 0x7A05#16), ("SET_D", "SET_decimalFlag", 4, 0x7A04#16),
      ("SET_U3", "SET_unusedHighFlag", 3, 0x7A03#16), ("SET_U2", "SET_unusedLowFlag", 2, 0x7A02#16),
      ("SET_V", "SET_overflowFlag", 1, 0x7A01#16), ("SET_N", "SET_negativeFlag", 0, 0x7A00#16)],
    ∀ b : Data, assemble (.setter row.1 b) = some (.command row.2.2.2 b) ∧
      assemble (.setter row.2.1 b) = some (.command row.2.2.2 b) ∧
      assemble (.fwr row.2.2.1 b) = some (.command row.2.2.2 b))

/-- What each line of R84 to R86 assembles to, and that the next step runs it. Every form has the word of the command it
names; `#v` is the data input unchanged, BVS places b in d[8] and v in d[7:0] (R84), and an omitted width assembles as 0
on PC and SP and is not accepted on the other cells (R84, R86). Operands are 0 to 15 (R84) and the accessor names are
those of R85. The model's choices (log 13): a line comes already split, a line without data has d = 0, BVS takes a byte
and a Boolean, and a line that is not accepted assembles to nothing. -/
def Obligations.AssembledLineRuns : Prop :=
  (∀ (r : Reg) (off w i : Nat) (v : Data) (x : Byte) (b : Bool), off < 16 → w < 16 → i < 16 →
    ∀ row ∈ ([(.rdb r off, .rdb r off, 0#64), (.wrb r off v, .wrb r off, v),
      (.rdi r off (some w), .rdi r off w, 0#64), (.wri r off (some w) v, .wri r off w, v),
      (.rdi .pc off none, .rdi .pc off 0, 0#64), (.wri .pc off none v, .wri .pc off 0, v),
      (.rdi .sp off none, .rdi .sp off 0, 0#64), (.wri .sp off none v, .wri .sp off 0, v),
      (.rdv r, .rdv r, 0#64), (.rds r, .rds r, 0#64), (.frd i, .frd i, 0#64), (.fwr i v, .fwr i, v),
      (.bvg v i, .bvg i, v), (.bvs x i b, .bvs i, (if b then 256#64 else 0#64) + x.setWidth 64),
      (.getter "GET_C", .getC, 0#64), (.getter "GET_carryFlag", .getC, 0#64),
      (.getter "GET_Z", .getZ, 0#64), (.getter "GET_zeroFlag", .getZ, 0#64),
      (.getter "GET_I", .getI, 0#64), (.getter "GET_interruptFlag", .getI, 0#64),
      (.getter "GET_D", .getD, 0#64), (.getter "GET_decimalFlag", .getD, 0#64),
      (.getter "GET_U3", .getU3, 0#64), (.getter "GET_unusedHighFlag", .getU3, 0#64),
      (.getter "GET_U2", .getU2, 0#64), (.getter "GET_unusedLowFlag", .getU2, 0#64),
      (.getter "GET_V", .getV, 0#64), (.getter "GET_overflowFlag", .getV, 0#64),
      (.getter "GET_N", .getN, 0#64), (.getter "GET_negativeFlag", .getN, 0#64),
      (.setter "SET_C" v, .setC, v), (.setter "SET_carryFlag" v, .setC, v),
      (.setter "SET_Z" v, .setZ, v), (.setter "SET_zeroFlag" v, .setZ, v),
      (.setter "SET_I" v, .setI, v), (.setter "SET_interruptFlag" v, .setI, v),
      (.setter "SET_D" v, .setD, v), (.setter "SET_decimalFlag" v, .setD, v),
      (.setter "SET_U3" v, .setU3, v), (.setter "SET_unusedHighFlag" v, .setU3, v),
      (.setter "SET_U2" v, .setU2, v), (.setter "SET_unusedLowFlag" v, .setU2, v),
      (.setter "SET_V" v, .setV, v), (.setter "SET_overflowFlag" v, .setV, v),
      (.setter "SET_N" v, .setN, v), (.setter "SET_negativeFlag" v, .setN, v)] :
        List (AsmLine × Instr × Data)),
      assemble row.1 = some (.command (encode row.2.1) row.2.2) ∧
      ∀ (s : State) (rest : List Request), s.requests = .command (encode row.2.1) row.2.2 :: rest →
        step s = exec row.2.1 { s with d := row.2.2, requests := rest }) ∧
  (∀ (r : Reg) (off w i : Nat) (width : Option Nat) (v : Data) (x : Byte) (b : Bool),
    (16 ≤ off → ∀ l ∈ [AsmLine.rdb r off, .wrb r off v, .rdi r off width, .wri r off width v], assemble l = none) ∧
    (16 ≤ w → ∀ l ∈ [AsmLine.rdi r off (some w), .wri r off (some w) v], assemble l = none) ∧
    (16 ≤ i → ∀ l ∈ [AsmLine.frd i, .fwr i v, .bvg v i, .bvs x i b], assemble l = none) ∧
    (r ≠ .pc → r ≠ .sp → ∀ l ∈ [AsmLine.rdi r off none, .wri r off none v], assemble l = none)) ∧
  (∀ name : String,
    name ∉ ["GET_C", "GET_carryFlag", "GET_Z", "GET_zeroFlag", "GET_I", "GET_interruptFlag", "GET_D",
      "GET_decimalFlag", "GET_U3", "GET_unusedHighFlag", "GET_U2", "GET_unusedLowFlag", "GET_V", "GET_overflowFlag",
      "GET_N", "GET_negativeFlag"] →
    assemble (.getter name) = none) ∧
  ∀ (name : String) (v : Data),
    name ∉ ["SET_C", "SET_carryFlag", "SET_Z", "SET_zeroFlag", "SET_I", "SET_interruptFlag", "SET_D",
      "SET_decimalFlag", "SET_U3", "SET_unusedHighFlag", "SET_U2", "SET_unusedLowFlag", "SET_V", "SET_overflowFlag",
      "SET_N", "SET_negativeFlag"] →
    assemble (.setter name v) = none

/-! ## Byte access -/

/-- R91: the word of RDB is `0x0000 | rsel<<9 | off<<4`; it answers byte `off`, or raises IndexOutOfBounds when
`off >= size(r)`; it changes no cell. -/
def Obligations.RdbReadsOneByte : Prop :=
  ∀ (s : State) (r : Reg) (off : Nat), s.wf = true →
    (off < 16 → (encode (.rdb r off)).toNat = 0x0000 + r.sel * 512 + off * 16) ∧
    (off < cellSize s.cfg r → ∃ b, (buf s.cells r)[off]? = some b ∧
      exec (.rdb r off) s = .next { s with response := some ⟨.ok, b.setWidth 64⟩ }) ∧
    (cellSize s.cfg r ≤ off →
      exec (.rdb r off) s = .next { s with response := some ⟨.indexOutOfBounds, 0#64⟩ })

/-- R92: the word of WRB is `0x1000 | rsel<<9 | off<<4`; WRB stores the low byte of d at `off` and changes no other
byte of any cell; it raises IndexOutOfBounds, then ValueOutOfRange under Reject, and then writes nothing. -/
def Obligations.WrbWritesOneByte : Prop :=
  ∀ (s : State) (r : Reg) (off : Nat), s.wf = true →
    (off < 16 → (encode (.wrb r off)).toNat = 0x1000 + r.sel * 512 + off * 16) ∧
    (off < cellSize s.cfg r → (s.d.toNat < 256 ∨ s.cfg.policy = .truncate) →
      ∃ c : Cells, exec (.wrb r off) s = .next { s with cells := c, response := some ⟨.ok, 0#64⟩ } ∧
        (buf c r)[off]? = some (s.d.setWidth 8) ∧
        ∀ r' k, ¬(r' = r ∧ k = off) → (buf c r')[k]? = (buf s.cells r')[k]?) ∧
    (cellSize s.cfg r ≤ off →
      exec (.wrb r off) s = .next { s with response := some ⟨.indexOutOfBounds, 0#64⟩ }) ∧
    (off < cellSize s.cfg r → 256 ≤ s.d.toNat → s.cfg.policy = .reject →
      exec (.wrb r off) s = .next { s with response := some ⟨.valueOutOfRange, 0#64⟩ })

/-- R94: the word of RDV is `0x4000 | rsel<<9`; RDV answers the one value whose big-endian bytes are the whole buffer,
and changes no cell. -/
def Obligations.RdvReadsWholeBuffer : Prop :=
  ∀ (s : State) (r : Reg), s.wf = true →
    (encode (.rdv r)).toNat = 0x4000 + r.sel * 512 ∧
    ∃ v : Data, exec (.rdv r) s = .next { s with response := some ⟨.ok, v⟩ } ∧
      v.toNat < 256 ^ cellSize s.cfg r ∧
      ∀ k, k < cellSize s.cfg r →
        (buf s.cells r)[k]? = some (v.extractLsb' (8 * (cellSize s.cfg r - 1 - k)) 8)

/-- R95: the word of RDS is `0x5000 | rsel<<9`; RDS answers 2 on PC, 1 on SP, A, X, Y and P, and RSIZE on R, in every
state, and changes no cell. -/
def Obligations.RdsReportsTheSize : Prop :=
  (∀ r : Reg, (encode (.rds r)).toNat = 0x5000 + r.sel * 512) ∧ ∀ s : State,
    exec (.rds .pc) s = .next { s with response := some ⟨.ok, 2#64⟩ } ∧
    (∀ r, r = .sp ∨ r = .a ∨ r = .x ∨ r = .y ∨ r = .p →
      exec (.rds r) s = .next { s with response := some ⟨.ok, 1#64⟩ }) ∧
    exec (.rds .gen) s = .next { s with response := some ⟨.ok, BitVec.ofNat 64 s.cfg.rsize⟩ }

/-- R28: PC's value is its two bytes, the one at offset 0 the high byte; RDB reads them apart. -/
def Obligations.PcValueIsBigEndian : Prop :=
  ∀ s : State, ∃ hi lo : Byte, s.cells.pc = hi ++ lo ∧
    (buf s.cells .pc)[0]? = some hi ∧ (buf s.cells .pc)[1]? = some lo ∧
    exec (.rdb .pc 0) s = .next { s with response := some ⟨.ok, hi.setWidth 64⟩ } ∧
    exec (.rdb .pc 1) s = .next { s with response := some ⟨.ok, lo.setWidth 64⟩ }

/-! ## Multi-width access -/

/-- R103: the word of RDI is `0x2000 | rsel<<9 | off<<4 | sel`; with n the effective width (2 on PC, 1 on SP, else
sel), RDI answers the one value whose n big-endian bytes stand at `off`, or raises UnsupportedWidth, then
IndexOutOfBounds; it changes no cell. -/
def Obligations.RdiReadsBigEndian : Prop :=
  ∀ (s : State) (r : Reg) (off sel n : Nat), s.wf = true →
    n = (if r = .pc then 2 else if r = .sp then 1 else sel) →
    (off < 16 → sel < 16 → (encode (.rdi r off sel)).toNat = 0x2000 + r.sel * 512 + off * 16 + sel) ∧
    ((n = 1 ∨ n = 2 ∨ n = 4 ∨ n = 8) → off + n ≤ cellSize s.cfg r →
      ∃ v : Data, exec (.rdi r off sel) s = .next { s with response := some ⟨.ok, v⟩ } ∧ v.toNat < 256 ^ n ∧
        ∀ k, k < n → (buf s.cells r)[off + k]? = some (v.extractLsb' (8 * (n - 1 - k)) 8)) ∧
    (¬(n = 1 ∨ n = 2 ∨ n = 4 ∨ n = 8) →
      exec (.rdi r off sel) s = .next { s with response := some ⟨.unsupportedWidth, 0#64⟩ }) ∧
    ((n = 1 ∨ n = 2 ∨ n = 4 ∨ n = 8) → cellSize s.cfg r < off + n →
      exec (.rdi r off sel) s = .next { s with response := some ⟨.indexOutOfBounds, 0#64⟩ })

/-- R104, R53: the word of WRI is `0x3000 | rsel<<9 | off<<4 | sel`; with n the effective width, WRI stores the low n
bytes of d big-endian at `off`, byte k being `d[8(n-k)-1 : 8(n-k)-8]`, and changes no other byte of any cell; it
raises UnsupportedWidth, then IndexOutOfBounds, then ValueOutOfRange under Reject, and then writes nothing. -/
def Obligations.WriWritesBigEndian : Prop :=
  ∀ (s : State) (r : Reg) (off sel n : Nat), s.wf = true →
    n = (if r = .pc then 2 else if r = .sp then 1 else sel) →
    (off < 16 → sel < 16 → (encode (.wri r off sel)).toNat = 0x3000 + r.sel * 512 + off * 16 + sel) ∧
    ((n = 1 ∨ n = 2 ∨ n = 4 ∨ n = 8) → off + n ≤ cellSize s.cfg r →
      (s.d.toNat < 256 ^ n ∨ s.cfg.policy = .truncate) →
      ∃ c : Cells, exec (.wri r off sel) s = .next { s with cells := c, response := some ⟨.ok, 0#64⟩ } ∧
        (∀ k, k < n → (buf c r)[off + k]? = some (s.d.extractLsb' (8 * (n - 1 - k)) 8)) ∧
        ∀ r' k, ¬(r' = r ∧ off ≤ k ∧ k < off + n) → (buf c r')[k]? = (buf s.cells r')[k]?) ∧
    (¬(n = 1 ∨ n = 2 ∨ n = 4 ∨ n = 8) →
      exec (.wri r off sel) s = .next { s with response := some ⟨.unsupportedWidth, 0#64⟩ }) ∧
    ((n = 1 ∨ n = 2 ∨ n = 4 ∨ n = 8) → cellSize s.cfg r < off + n →
      exec (.wri r off sel) s = .next { s with response := some ⟨.indexOutOfBounds, 0#64⟩ }) ∧
    ((n = 1 ∨ n = 2 ∨ n = 4 ∨ n = 8) → off + n ≤ cellSize s.cfg r → 256 ^ n ≤ s.d.toNat →
      s.cfg.policy = .reject →
      exec (.wri r off sel) s = .next { s with response := some ⟨.valueOutOfRange, 0#64⟩ })

/-- R111: the round-trip law. What WRI writes from a value that fits, the same RDI reads back: for every cell, with n
the effective width. -/
def Obligations.WriThenRdiReturnsTheValue : Prop :=
  ∀ (s : State) (r : Reg) (off sel n : Nat), s.wf = true →
    n = (if r = .pc then 2 else if r = .sp then 1 else sel) →
    (n = 1 ∨ n = 2 ∨ n = 4 ∨ n = 8) → off + n ≤ cellSize s.cfg r → s.d.toNat < 256 ^ n →
    ∃ t : State, exec (.wri r off sel) s = .next t ∧ t.response = some ⟨.ok, 0#64⟩ ∧
      exec (.rdi r off sel) t = .next { t with response := some ⟨.ok, s.d⟩ }

/-- Mixed-width views agree (R55): after an n-byte write to R at `off`, an m-byte read inside it at `off + k` answers
the bits of the value from byte k on. -/
def Obligations.MixedWidthViewsAgree : Prop :=
  ∀ (s : State) (off n k m : Nat), s.wf = true →
    (n = 1 ∨ n = 2 ∨ n = 4 ∨ n = 8) → (m = 1 ∨ m = 2 ∨ m = 4 ∨ m = 8) →
    off + n ≤ s.cfg.rsize → k + m ≤ n → s.d.toNat < 256 ^ n →
    ∃ t : State, exec (.wri .gen off n) s = .next t ∧
      exec (.rdi .gen (off + k) m) t =
        .next { t with response := some ⟨.ok, (s.d.extractLsb' (8 * (n - k - m)) (8 * m)).setWidth 64⟩ }

/-- R105, R106, R107: RDI and WRI on PC work with width 2 and on SP with width 1 whatever sel holds, at offset 0; any
other offset raises IndexOutOfBounds; a value too wide raises ValueOutOfRange under Reject and is cut under Truncate. -/
def Obligations.PcAndSpOverrideTheWidth : Prop :=
  ∀ (s : State) (sel : Nat),
    exec (.rdi .pc 0 sel) s = .next { s with response := some ⟨.ok, s.cells.pc.setWidth 64⟩ } ∧
    exec (.rdi .sp 0 sel) s = .next { s with response := some ⟨.ok, s.cells.sp.setWidth 64⟩ } ∧
    ((s.d.toNat < 65536 ∨ s.cfg.policy = .truncate) →
      exec (.wri .pc 0 sel) s =
        .next { s with cells := { s.cells with pc := s.d.setWidth 16 }, response := some ⟨.ok, 0#64⟩ }) ∧
    ((s.d.toNat < 256 ∨ s.cfg.policy = .truncate) →
      exec (.wri .sp 0 sel) s =
        .next { s with cells := { s.cells with sp := s.d.setWidth 8 }, response := some ⟨.ok, 0#64⟩ }) ∧
    (65536 ≤ s.d.toNat → s.cfg.policy = .reject →
      exec (.wri .pc 0 sel) s = .next { s with response := some ⟨.valueOutOfRange, 0#64⟩ }) ∧
    (256 ≤ s.d.toNat → s.cfg.policy = .reject →
      exec (.wri .sp 0 sel) s = .next { s with response := some ⟨.valueOutOfRange, 0#64⟩ }) ∧
    ∀ off, 1 ≤ off → ∀ r, r = .pc ∨ r = .sp →
      exec (.rdi r off sel) s = .next { s with response := some ⟨.indexOutOfBounds, 0#64⟩ } ∧
      exec (.wri r off sel) s = .next { s with response := some ⟨.indexOutOfBounds, 0#64⟩ }

/-- R114: on the cells without an override a width of 1 is byte access, reads and writes, errors among them; on SP both
forms act on byte 0. -/
def Obligations.WidthOneAgreesWithByteAccess : Prop :=
  ∀ (s : State) (off sel : Nat),
    (∀ r, r ≠ .pc → r ≠ .sp →
      exec (.rdi r off 1) s = exec (.rdb r off) s ∧ exec (.wri r off 1) s = exec (.wrb r off) s) ∧
    exec (.rdi .sp off sel) s = exec (.rdb .sp off) s ∧ exec (.wri .sp off sel) s = exec (.wrb .sp off) s

/-! ## BitView and the flags -/

/-- R120, R121: `bv_get` is the bit, and `bv_set` forces that bit and leaves every other bit. -/
def Obligations.BitViewGetAndSet : Prop :=
  ∀ (b : Byte) (i j : Nat) (v : Bool), i < 8 → j < 8 →
    bvGet b i = b.getLsbD i ∧ (bvSet b i v).getLsbD j = if j = i then v else b.getLsbD j

/-- R124: the word of BVG is `0x8000 | sel`; BVG answers bit i of the byte d[7:0] as 1 or 0; it raises
IndexOutOfBounds for i > 7, then ValueOutOfRange under Reject when d does not fit 8 bits; it changes no cell. -/
def Obligations.BvgReadsABitOfTheData : Prop :=
  ∀ (s : State) (i : Nat),
    (i < 16 → (encode (.bvg i)).toNat = 0x8000 + i) ∧
    (i ≤ 7 → (s.d.toNat < 256 ∨ s.cfg.policy = .truncate) →
      exec (.bvg i) s =
        .next { s with response := some ⟨.ok, if s.d.getLsbD i then 1#64 else 0#64⟩ }) ∧
    (7 < i → exec (.bvg i) s = .next { s with response := some ⟨.indexOutOfBounds, 0#64⟩ }) ∧
    (i ≤ 7 → 256 ≤ s.d.toNat → s.cfg.policy = .reject →
      exec (.bvg i) s = .next { s with response := some ⟨.valueOutOfRange, 0#64⟩ })

/-- R125: the word of BVS is `0x9000 | sel`; BVS answers the byte d[7:0] with bit i forced to d[8]; it raises
IndexOutOfBounds for i > 7, then ValueOutOfRange under Reject when d does not fit 9 bits; it changes no cell. -/
def Obligations.BvsForcesABitOfTheData : Prop :=
  ∀ (s : State) (i : Nat),
    (i < 16 → (encode (.bvs i)).toNat = 0x9000 + i) ∧
    (i ≤ 7 → (s.d.toNat < 512 ∨ s.cfg.policy = .truncate) →
      ∃ x : Data, exec (.bvs i) s = .next { s with response := some ⟨.ok, x⟩ } ∧
        ∀ j, x.getLsbD j = (decide (j < 8) && if j = i then s.d.getLsbD 8 else s.d.getLsbD j)) ∧
    (7 < i → exec (.bvs i) s = .next { s with response := some ⟨.indexOutOfBounds, 0#64⟩ }) ∧
    (i ≤ 7 → 512 ≤ s.d.toNat → s.cfg.policy = .reject →
      exec (.bvs i) s = .next { s with response := some ⟨.valueOutOfRange, 0#64⟩ })

/-- R145: the BitView laws in commands: BVG at j of what BVS answered at i is the bit set when j = i, and the bit of the
byte otherwise. -/
def Obligations.BvgOfBvs : Prop :=
  ∀ (s : State) (b : Byte) (v : Bool) (i j : Nat), i ≤ 7 → j ≤ 7 →
    s.d = (if v then 256#64 else 0#64) + b.setWidth 64 →
    ∃ x : Data, exec (.bvs i) s = .next { s with response := some ⟨.ok, x⟩ } ∧
      exec (.bvg j) { s with d := x } =
        .next { s with
          d := x
          response := some ⟨.ok, if (if j = i then v else b.getLsbD j) then 1#64 else 0#64⟩ }

/-- R126: the word of FRD is `0x6A00 | sel`; FRD answers bit i of P as 1 or 0, or raises IndexOutOfBounds for i > 7;
it changes no cell. -/
def Obligations.FrdReadsOneFlag : Prop :=
  ∀ (s : State) (i : Nat),
    (i < 16 → (encode (.frd i)).toNat = 0x6A00 + i) ∧
    (i ≤ 7 → exec (.frd i) s =
      .next { s with response := some ⟨.ok, if s.cells.p.getLsbD i then 1#64 else 0#64⟩ }) ∧
    (7 < i → exec (.frd i) s = .next { s with response := some ⟨.indexOutOfBounds, 0#64⟩ })

/-- R127: the word of FWR is `0x7A00 | sel`; FWR forces bit i of P to d[0] and writes the byte back: the other seven
bits and every other cell are unchanged; it raises IndexOutOfBounds for i > 7, then ValueOutOfRange under Reject when
d does not fit one bit. -/
def Obligations.FwrWritesOneFlag : Prop :=
  ∀ (s : State) (i : Nat),
    (i < 16 → (encode (.fwr i)).toNat = 0x7A00 + i) ∧
    (i ≤ 7 → (s.d.toNat < 2 ∨ s.cfg.policy = .truncate) →
      ∃ p : Byte,
        exec (.fwr i) s =
          .next { s with cells := { s.cells with p := p }, response := some ⟨.ok, 0#64⟩ } ∧
        ∀ j, j < 8 → p.getLsbD j = if j = i then s.d.getLsbD 0 else s.cells.p.getLsbD j) ∧
    (7 < i → exec (.fwr i) s = .next { s with response := some ⟨.indexOutOfBounds, 0#64⟩ }) ∧
    (i ≤ 7 → 2 ≤ s.d.toNat → s.cfg.policy = .reject →
      exec (.fwr i) s = .next { s with response := some ⟨.valueOutOfRange, 0#64⟩ })

/-- R128, R130, …, R142: each named getter has the word of FRD at its flag's index and answers that bit of P as 1 or
0, in every state, and changes no cell. -/
def Obligations.NamedGettersReadTheirFlag : Prop :=
  ∀ row ∈ [(Instr.getC, 7), (.getZ, 6), (.getI, 5), (.getD, 4), (.getU3, 3), (.getU2, 2), (.getV, 1), (.getN, 0)],
    (encode row.1).toNat = 0x6A00 + row.2 ∧ encode row.1 = encode (.frd row.2) ∧
    ∀ s : State, exec row.1 s =
      .next { s with response := some ⟨.ok, if s.cells.p.getLsbD row.2 then 1#64 else 0#64⟩ }

/-- R129, R131, …, R143: each named setter has the word of FWR at its flag's index and forces that bit of P to d[0]
and changes nothing else; under Reject a d that does not fit one bit raises ValueOutOfRange and writes nothing. -/
def Obligations.NamedSettersWriteTheirFlag : Prop :=
  ∀ row ∈ [(Instr.setC, 7), (.setZ, 6), (.setI, 5), (.setD, 4), (.setU3, 3), (.setU2, 2), (.setV, 1), (.setN, 0)],
    (encode row.1).toNat = 0x7A00 + row.2 ∧ encode row.1 = encode (.fwr row.2) ∧
    ∀ s : State,
      ((s.d.toNat < 2 ∨ s.cfg.policy = .truncate) →
        ∃ p : Byte,
          exec row.1 s =
            .next { s with cells := { s.cells with p := p }, response := some ⟨.ok, 0#64⟩ } ∧
          ∀ j, j < 8 → p.getLsbD j = if j = row.2 then s.d.getLsbD 0 else s.cells.p.getLsbD j) ∧
      (2 ≤ s.d.toNat → s.cfg.policy = .reject →
        exec row.1 s = .next { s with response := some ⟨.valueOutOfRange, 0#64⟩ })

/-- R34: the flag layout: index and mask of each flag, and one bit per flag, no overlap. -/
def Obligations.FlagLayoutHasNoOverlap : Prop :=
  [StatusFlag.carry, .zero, .interruptDisable, .decimal, .unusedHigh, .unusedLow, .overflow, .negative].map
      (fun f => (f.index, f.mask)) =
    [(7, 0x80#8), (6, 0x40#8), (5, 0x20#8), (4, 0x10#8), (3, 0x08#8), (2, 0x04#8), (1, 0x02#8), (0, 0x01#8)] ∧
  ∀ (b : Byte) (f g : StatusFlag), flagOf b f = b.getLsbD f.index ∧ (f ≠ g → f.mask &&& g.mask = 0#8)

/-- R147: the flag decoder reads `C = b[7]` … `N = b[0]`, the byte from flags is `C<<7 | Z<<6 | … | N`, and the two maps
are inverse bijections. -/
def Obligations.FlagDecoderIsABijection : Prop :=
  (∀ b : Byte,
    flagsOfByte b = ⟨b.getLsbD 7, b.getLsbD 6, b.getLsbD 5, b.getLsbD 4, b.getLsbD 3, b.getLsbD 2, b.getLsbD 1,
      b.getLsbD 0⟩ ∧ byteOfFlags (flagsOfByte b) = b) ∧
  ∀ f : FlagSet,
    (byteOfFlags f).toNat = 128 * f.c.toNat + 64 * f.z.toNat + 32 * f.i.toNat + 16 * f.d.toNat + 8 * f.u3.toNat +
      4 * f.u2.toNat + 2 * f.v.toNat + f.n.toNat ∧
    flagsOfByte (byteOfFlags f) = f

/-- R146: after FWR of v at i, FRD at i answers v and FRD at every other index answers as before. -/
def Obligations.FlagReadAfterWrite : Prop :=
  ∀ (s : State) (i j : Nat) (v : Bool), i ≤ 7 → j ≤ 7 → s.d = (if v then 1#64 else 0#64) →
    ∃ t : State, exec (.fwr i) s = .next t ∧
      exec (.frd j) t =
        .next { t with
          response := some ⟨.ok, if (if j = i then v else s.cells.p.getLsbD j) then 1#64 else 0#64⟩ }

/-- R96: a byte write to P writes all eight flags: afterwards flag i reads bit i of the byte written, by WRB and by WRI
of width 1. -/
def Obligations.StatusByteWriteSetsAllFlags : Prop :=
  ∀ (s : State) (b : Byte) (i : Nat) (w : Instr), s.d = b.setWidth 64 → i ≤ 7 →
    (w = .wrb .p 0 ∨ w = .wri .p 0 1) →
    ∃ t : State, exec w s = .next t ∧ t.cells.p = b ∧
      exec (.frd i) t = .next { t with response := some ⟨.ok, if b.getLsbD i then 1#64 else 0#64⟩ }

/-! ## The oversize check -/

/-- R102: a value that fits m bits is stored as it is under both policies; one that does not raises under Reject and
keeps its low m bits under Truncate. -/
def Obligations.OversizeCheckFollowsThePolicy : Prop :=
  ∀ (d : Data) (m : Nat), 1 ≤ m → m ≤ 64 →
    (d.toNat < 2 ^ m → ∀ p, fit p d m = some d) ∧
    (2 ^ m ≤ d.toNat → fit .reject d m = none ∧
      ∃ v : Data, fit .truncate d m = some v ∧ v.toNat = d.toNat % 2 ^ m)

/-- The policy decides nothing but the oversize case: an instruction that does not raise ValueOutOfRange under Reject
does the same under Truncate. -/
def Obligations.PolicyDecidesOnlyOversizeData : Prop :=
  ∀ (i : Instr) (s t : State), s.cfg.policy = .reject → exec i s = .next t →
    (∀ resp, t.response = some resp → resp.status ≠ .valueOutOfRange) →
    exec i { s with cfg := { s.cfg with policy := .truncate } } =
      .next { t with cfg := { t.cfg with policy := .truncate } }

/-! ## Errors -/

/-- R77: the status codes are 0 to 4, no other is produced, and rdata is 0 on every error and on every write. -/
def Obligations.ResponsesFollowTheStatusTable : Prop :=
  [Status.ok, .unsupportedWidth, .indexOutOfBounds, .illegalCommand, .valueOutOfRange].map Status.code =
    [0#3, 1#3, 2#3, 3#3, 4#3] ∧ (∀ e : Status, e.code.toNat < 5) ∧
  ∀ (i : Instr) (s t : State) (resp : Response), exec i s = .next t → t.response = some resp →
    (resp.status ≠ .ok ∨ i.writes ≠ none) → resp.rdata = 0#64

/-- R160: a raised command answers rdata 0 and leaves the state as it was; said of every instruction, and of every step
that responds with an error. -/
def Obligations.ErrorsChangeNothing : Prop :=
  (∀ (i : Instr) (s t : State) (resp : Response), exec i s = .next t → t.response = some resp →
    resp.status ≠ .ok → resp.rdata = 0#64 ∧ t = { s with response := some resp }) ∧
  (∀ (s t : State) (resp : Response), step s = .next t → t.response = some resp → resp.status ≠ .ok →
    resp.rdata = 0#64 ∧ t.cells = s.cells ∧ t.cfg = s.cfg ∧ t.requests = s.requests.tail)

/-- R161: UnsupportedWidth is raised exactly by RDI and WRI on A, X, Y, P and R with sel not 1, 2, 4 or 8. -/
def Obligations.UnsupportedWidthExactlyWhen : Prop :=
  ∀ (i : Instr) (s t : State), exec i s = .next t →
    ((∃ x, t.response = some ⟨.unsupportedWidth, x⟩) ↔
      ∃ r off sel, (i = .rdi r off sel ∨ i = .wri r off sel) ∧ (r = .a ∨ r = .x ∨ r = .y ∨ r = .p ∨ r = .gen) ∧
        sel ≠ 1 ∧ sel ≠ 2 ∧ sel ≠ 4 ∧ sel ≠ 8)

/-- R162: IndexOutOfBounds is raised exactly by the byte, integer and bit commands whose index is out of range (the
integer commands with a legal effective width n). -/
def Obligations.IndexOutOfBoundsExactlyWhen : Prop :=
  ∀ (i : Instr) (s t : State), exec i s = .next t →
    ((∃ x, t.response = some ⟨.indexOutOfBounds, x⟩) ↔
      (∃ r off, (i = .rdb r off ∨ i = .wrb r off) ∧ cellSize s.cfg r ≤ off) ∨
      (∃ r off sel n, (i = .rdi r off sel ∨ i = .wri r off sel) ∧
        n = (if r = .pc then 2 else if r = .sp then 1 else sel) ∧ (n = 1 ∨ n = 2 ∨ n = 4 ∨ n = 8) ∧
        cellSize s.cfg r < off + n) ∨
      (∃ b, (i = .frd b ∨ i = .fwr b ∨ i = .bvg b ∨ i = .bvs b) ∧ 7 < b))

/-- R164: ValueOutOfRange is raised only under Reject, and only by an instruction that takes m bits of d when d has a
bit set above them (never under Truncate); and under Reject such an instruction never succeeds. -/
def Obligations.ValueOutOfRangeOnlyUnderReject : Prop :=
  ∀ (i : Instr) (s t : State), exec i s = .next t →
    (∀ x, t.response = some ⟨.valueOutOfRange, x⟩ →
      s.cfg.policy = .reject ∧ ∃ m, i.dataBits = some m ∧ 2 ^ m ≤ s.d.toNat) ∧
    (∀ m, i.dataBits = some m → 2 ^ m ≤ s.d.toNat → s.cfg.policy = .reject →
      ∃ e, (e = .valueOutOfRange ∨ e = .unsupportedWidth ∨ e = .indexOutOfBounds) ∧
        t = { s with response := some ⟨e, 0#64⟩ })

/-! ## What reads, what writes, and what no command can observe -/

/-- R61: an instruction that writes no cell (RDB, RDI, RDV, RDS, FRD, the named getters, BVG; and BVS) changes nothing
but the response, and repeating it gives the same response. -/
def Obligations.ReadsHaveNoSideEffects : Prop :=
  ∀ (i : Instr) (s t : State), i.writes = none → exec i s = .next t →
    t = { s with response := t.response } ∧ exec i t = .next t

/-- R62: repeating a write with the same fields and data leaves the same state as issuing it once. -/
def Obligations.WritesAreIdempotent : Prop :=
  ∀ (i : Instr) (s t : State) (r : Reg), i.writes = some r → exec i s = .next t → exec i t = .next t

/-- R22: a write to one cell never changes a byte of another cell; said of every instruction, whose frame it is: nothing
changes but the cell its rule names and the response. -/
def Obligations.WritesTouchOnlyTheirCell : Prop :=
  ∀ (i : Instr) (s t : State), exec i s = .next t →
    t = { s with cells := t.cells, response := t.response } ∧
    ∀ r, i.writes ≠ some r → buf t.cells r = buf s.cells r

/-- PC changes only through WRB or WRI with rsel = PC, or reset (R29). -/
def Obligations.PcChangesOnlyByWriteOrReset : Prop :=
  ∀ s t : State, step s = .next t → t.cells.pc ≠ s.cells.pc →
    (∃ rest, s.requests = .reset :: rest) ∨
    ∃ w d rest, s.requests = .command w d :: rest ∧
      ((∃ off, decode w = .command (.wrb .pc off)) ∨ ∃ off sel, decode w = .command (.wri .pc off sel))

/-- A flag of P changes only through FWR at its own index, a generic write of P, or reset (R37). -/
def Obligations.FlagChangesOnlyByFlagWriteOrStatusWrite : Prop :=
  ∀ (s t : State) (j : Nat), step s = .next t → t.cells.p.getLsbD j ≠ s.cells.p.getLsbD j →
    (∃ rest, s.requests = .reset :: rest) ∨
    ∃ w d rest, s.requests = .command w d :: rest ∧
      (decode w = .command (.fwr j) ∨ (∃ off, decode w = .command (.wrb .p off)) ∨
        ∃ off sel, decode w = .command (.wri .p off sel))

/-- A command that takes no data ignores d entirely (R76): its effect is the same at every d. -/
def Obligations.CommandsWithoutDataIgnoreIt : Prop :=
  ∀ (i : Instr) (s t : State) (x : Data), i.dataBits = none → exec i s = .next t →
    exec i { s with d := x } = .next { t with d := x }

/-- BVG and BVS read and write no cell (R59, R124, R125): over other cells they answer the same and leave those. -/
def Obligations.BitViewCommandsIgnoreTheCells : Prop :=
  ∀ (i : Instr) (b : Nat) (s t : State) (c : Cells), (i = .bvg b ∨ i = .bvs b) → exec i s = .next t →
    t.cells = s.cells ∧ exec i { s with cells := c } = .next { t with cells := c }

/-- Errors are not sticky and nothing of an earlier command but the cells can be observed (R171, R172): two states with
the same cells, parameters and requests, whatever responses and data came before, step to states with the same cells,
parameters, requests and response. -/
def Obligations.NothingButTheCellsIsRemembered : Prop :=
  ∀ s u : State, s.cells = u.cells → s.cfg = u.cfg → s.requests = u.requests →
    ∃ t v : State, step s = .next t ∧ step u = .next v ∧
      t.cells = v.cells ∧ t.cfg = v.cfg ∧ t.requests = v.requests ∧ t.response = v.response
end

