-- ==== Sys2Proof/Laws/State.lean ====
section
/-! SUPPORT. One lemma per field per update of the state, each true by unfolding. -/

namespace Sys2Proof.Machine

variable (s : State) (d : Data) (rest : List Request) (b : Byte) (c : Cells) (cfg : Config) (n : Nat)

@[simp] theorem accept_cells : (accept d rest s).cells = s.cells := rfl
@[simp] theorem accept_cfg : (accept d rest s).cfg = s.cfg := rfl
@[simp] theorem accept_d : (accept d rest s).d = d := rfl
@[simp] theorem accept_requests : (accept d rest s).requests = rest := rfl
@[simp] theorem accept_response : (accept d rest s).response = s.response := rfl

@[simp] theorem storeStatus_cfg : (storeStatus b s).cfg = s.cfg := rfl
@[simp] theorem storeStatus_d : (storeStatus b s).d = s.d := rfl
@[simp] theorem storeStatus_requests : (storeStatus b s).requests = s.requests := rfl
@[simp] theorem storeStatus_response : (storeStatus b s).response = s.response := rfl
/-- Storing the status byte replaces P and nothing else (R123, R149). -/
@[simp] theorem storeStatus_cells : (storeStatus b s).cells = { s.cells with p := b } := rfl

@[simp] theorem initial_cells : (State.initial cfg).cells = Cells.zero cfg.rsize := rfl
@[simp] theorem initial_cfg : (State.initial cfg).cfg = cfg := rfl
@[simp] theorem initial_d : (State.initial cfg).d = 0#64 := rfl
@[simp] theorem initial_requests : (State.initial cfg).requests = [] := rfl
@[simp] theorem initial_response : (State.initial cfg).response = none := rfl

@[simp] theorem zero_pc : (Cells.zero n).pc = 0#16 := rfl
@[simp] theorem zero_sp : (Cells.zero n).sp = 0#8 := rfl
@[simp] theorem zero_a : (Cells.zero n).a = 0#8 := rfl
@[simp] theorem zero_x : (Cells.zero n).x = 0#8 := rfl
@[simp] theorem zero_y : (Cells.zero n).y = 0#8 := rfl
@[simp] theorem zero_p : (Cells.zero n).p = 0#8 := rfl
@[simp] theorem zero_r : (Cells.zero n).r = List.replicate n 0#8 := rfl

/-- The status byte is P's one byte (R33). -/
@[simp] theorem byteRead_status : byteRead c .p 0 = c.p := rfl

/-- The size invariant, as two facts (R10, R21). -/
theorem wf_iff : s.wf = true ↔ (1 ≤ s.cfg.rsize ∧ s.cfg.rsize ≤ 8) ∧ s.cells.r.length = s.cfg.rsize := by
  simp [State.wf, Config.wf]

end Sys2Proof.Machine
end

