-- ==== Sys2Proof/Laws/Assembler.lean ====
section
/-! SUPPORT. What a line assembles to, from its instruction and data (R84). -/

namespace Sys2Proof.Machine

/-- A line whose operands fit assembles to its instruction's word and its data. -/
theorem assemble_of_wellFormed {l : AsmLine} {i : Instr} {d : Data} (hp : l.parts = some (i, d))
    (hw : i.wellFormed = true) : assemble l = some (.command (encode i) d) := by
  simp [assemble, hp, hw]

/-- A line with an operand that no field holds assembles to nothing. -/
theorem assemble_of_not_wellFormed {l : AsmLine} {i : Instr} {d : Data} (hp : l.parts = some (i, d))
    (hw : i.wellFormed = false) : assemble l = none := by
  simp [assemble, hp, hw]

/-- A line that is no line of R84 assembles to nothing. -/
theorem assemble_of_parts_none {l : AsmLine} (hp : l.parts = none) : assemble l = none := by
  simp [assemble, hp]

/-- A width that is written stands as it is, on every cell (R84). -/
@[simp] theorem widthOperand_some (r : Reg) (n : Nat) : widthOperand r (some n) = some n := rfl

/-- An omitted width on PC assembles as 0 (R84, R86). -/
@[simp] theorem widthOperand_pc : widthOperand .pc none = some 0 := rfl

/-- An omitted width on SP assembles as 0 (R84, R86). -/
@[simp] theorem widthOperand_sp : widthOperand .sp none = some 0 := rfl

/-- An omitted width on another cell is refused (R86). -/
theorem widthOperand_none {r : Reg} (hp : r ≠ .pc) (hs : r ≠ .sp) : widthOperand r none = none := by
  cases r <;> first | rfl | contradiction

/-- The data of a BVS line: b in d[8], v in d[7:0] (R84). -/
theorem bvsData_eq (v : Byte) (b : Bool) :
    boolData b <<< 8 ||| v.setWidth 64 = (if b then 256#64 else 0#64) + v.setWidth 64 := by
  revert v
  cases b <;> decide

end Sys2Proof.Machine
end

