-- ==== Sys2Proof/Laws/Encoding.lean ====
section
/-! SUPPORT. The fields of a word made by the encoder: no field runs into another. -/

namespace Sys2Proof

theorem extract_or4 (a b c e : CmdWord) (start len : Nat) :
    (a ||| b ||| c ||| e).extractLsb' start len =
      a.extractLsb' start len ||| b.extractLsb' start len ||| c.extractLsb' start len ||| e.extractLsb' start len := by
  ext i hi
  simp

/-- `opField` of a made word (R71). -/
theorem opField_makeWord {op rsel off sel : Nat} (ho : op < 16) (hr : rsel < 8) (hf : off < 16) (hs : sel < 16) :
    opField (makeWord op rsel off sel) = op := by
  have op' : ∀ n, n < 16 → (BitVec.ofNat 16 n <<< 12).extractLsb' 12 4 = BitVec.ofNat 4 n := by decide
  have rsel' : ∀ n, n < 8 → (BitVec.ofNat 16 n <<< 9).extractLsb' 12 4 = 0#4 := by decide
  have off' : ∀ n, n < 16 → (BitVec.ofNat 16 n <<< 4).extractLsb' 12 4 = 0#4 := by decide
  have sel' : ∀ n, n < 16 → (BitVec.ofNat 16 n).extractLsb' 12 4 = 0#4 := by decide
  rw [opField, makeWord, extract_or4, op' _ ho, rsel' _ hr, off' _ hf, sel' _ hs]
  simp [Nat.mod_eq_of_lt ho]

/-- `rselField` of a made word (R71). -/
theorem rselField_makeWord {op rsel off sel : Nat} (ho : op < 16) (hr : rsel < 8) (hf : off < 16) (hs : sel < 16) :
    rselField (makeWord op rsel off sel) = rsel := by
  have op' : ∀ n, n < 16 → (BitVec.ofNat 16 n <<< 12).extractLsb' 9 3 = 0#3 := by decide
  have rsel' : ∀ n, n < 8 → (BitVec.ofNat 16 n <<< 9).extractLsb' 9 3 = BitVec.ofNat 3 n := by decide
  have off' : ∀ n, n < 16 → (BitVec.ofNat 16 n <<< 4).extractLsb' 9 3 = 0#3 := by decide
  have sel' : ∀ n, n < 16 → (BitVec.ofNat 16 n).extractLsb' 9 3 = 0#3 := by decide
  rw [rselField, makeWord, extract_or4, op' _ ho, rsel' _ hr, off' _ hf, sel' _ hs]
  simp [Nat.mod_eq_of_lt hr]

/-- `zField` of a made word (R71). -/
theorem zField_makeWord {op rsel off sel : Nat} (ho : op < 16) (hr : rsel < 8) (hf : off < 16) (hs : sel < 16) :
    zField (makeWord op rsel off sel) = 0 := by
  have op' : ∀ n, n < 16 → (BitVec.ofNat 16 n <<< 12).extractLsb' 8 1 = 0#1 := by decide
  have rsel' : ∀ n, n < 8 → (BitVec.ofNat 16 n <<< 9).extractLsb' 8 1 = 0#1 := by decide
  have off' : ∀ n, n < 16 → (BitVec.ofNat 16 n <<< 4).extractLsb' 8 1 = 0#1 := by decide
  have sel' : ∀ n, n < 16 → (BitVec.ofNat 16 n).extractLsb' 8 1 = 0#1 := by decide
  rw [zField, makeWord, extract_or4, op' _ ho, rsel' _ hr, off' _ hf, sel' _ hs]
  rfl

/-- `offField` of a made word (R71). -/
theorem offField_makeWord {op rsel off sel : Nat} (ho : op < 16) (hr : rsel < 8) (hf : off < 16) (hs : sel < 16) :
    offField (makeWord op rsel off sel) = off := by
  have op' : ∀ n, n < 16 → (BitVec.ofNat 16 n <<< 12).extractLsb' 4 4 = 0#4 := by decide
  have rsel' : ∀ n, n < 8 → (BitVec.ofNat 16 n <<< 9).extractLsb' 4 4 = 0#4 := by decide
  have off' : ∀ n, n < 16 → (BitVec.ofNat 16 n <<< 4).extractLsb' 4 4 = BitVec.ofNat 4 n := by decide
  have sel' : ∀ n, n < 16 → (BitVec.ofNat 16 n).extractLsb' 4 4 = 0#4 := by decide
  rw [offField, makeWord, extract_or4, op' _ ho, rsel' _ hr, off' _ hf, sel' _ hs]
  simp [Nat.mod_eq_of_lt hf]

/-- `selField` of a made word (R71). -/
theorem selField_makeWord {op rsel off sel : Nat} (ho : op < 16) (hr : rsel < 8) (hf : off < 16) (hs : sel < 16) :
    selField (makeWord op rsel off sel) = sel := by
  have op' : ∀ n, n < 16 → (BitVec.ofNat 16 n <<< 12).extractLsb' 0 4 = 0#4 := by decide
  have rsel' : ∀ n, n < 8 → (BitVec.ofNat 16 n <<< 9).extractLsb' 0 4 = 0#4 := by decide
  have off' : ∀ n, n < 16 → (BitVec.ofNat 16 n <<< 4).extractLsb' 0 4 = 0#4 := by decide
  have sel' : ∀ n, n < 16 → (BitVec.ofNat 16 n).extractLsb' 0 4 = BitVec.ofNat 4 n := by decide
  rw [selField, makeWord, extract_or4, op' _ ho, rsel' _ hr, off' _ hf, sel' _ hs]
  simp [Nat.mod_eq_of_lt hs]

theorem Reg.sel_lt (r : Reg) : r.sel < 7 := by cases r <;> decide

/-- R73: a cell's number names that cell. -/
@[simp] theorem Reg.ofSel_sel (r : Reg) : Reg.ofSel r.sel = some r := by cases r <;> rfl

theorem fieldFits_iff (n : Nat) : fieldFits n = true ↔ n < 16 := by simp [fieldFits]

/-- The decoder on a made word is R83 on its fields. -/
theorem decode_makeWord {op rsel off sel : Nat} (ho : op < 16) (hr : rsel < 8) (hf : off < 16) (hs : sel < 16) :
    decode (makeWord op rsel off sel) = decodeFields op rsel off sel := by
  rw [decode, opField_makeWord ho hr hf hs, rselField_makeWord ho hr hf hs, zField_makeWord ho hr hf hs,
    offField_makeWord ho hr hf hs, selField_makeWord ho hr hf hs, if_pos rfl]

/-- A made word as a number: the fields do not overlap (R71). -/
theorem makeWord_toNat {op rsel off sel : Nat} (ho : op < 16) (hr : rsel < 8) (hf : off < 16) (hs : sel < 16) :
    (makeWord op rsel off sel).toNat = op * 4096 + rsel * 512 + off * 16 + sel := by
  have e1 := opField_makeWord ho hr hf hs
  have e2 := rselField_makeWord ho hr hf hs
  have e3 := zField_makeWord ho hr hf hs
  have e4 := offField_makeWord ho hr hf hs
  have e5 := selField_makeWord ho hr hf hs
  have := (makeWord op rsel off sel).isLt
  simp only [opField, rselField, zField, offField, selField, BitVec.extractLsb'_toNat, Nat.shiftRight_eq_div_pow]
    at e1 e2 e3 e4 e5
  omega

/-- A word with z = 0 is made of its fields. -/
theorem makeWord_fields (w : CmdWord) (hz : zField w = 0) :
    makeWord (opField w) (rselField w) (offField w) (selField w) = w := by
  have h8 : w.getLsbD 8 = false := by
    have h : w.extractLsb' 8 1 = 0#1 := BitVec.eq_of_toNat_eq hz
    have := congrArg (fun v => v.getLsbD 0) h
    simpa using this
  apply BitVec.eq_of_getLsbD_eq
  intro i hi
  have : i = 0 ∨ i = 1 ∨ i = 2 ∨ i = 3 ∨ i = 4 ∨ i = 5 ∨ i = 6 ∨ i = 7 ∨ i = 8 ∨ i = 9 ∨ i = 10 ∨ i = 11 ∨
      i = 12 ∨ i = 13 ∨ i = 14 ∨ i = 15 := by omega
  simp only [makeWord, opField, rselField, offField, selField, BitVec.ofNat_toNat]
  obtain rfl | rfl | rfl | rfl | rfl | rfl | rfl | rfl | rfl | rfl | rfl | rfl | rfl | rfl | rfl | rfl := this <;>
    simp_all

end Sys2Proof
end

