-- ==== Sys2Proof/Laws/Ops.lean ====
section
/-! SUPPORT. What the shared operations over the cells' bytes do. -/

namespace Sys2Proof.Machine

/-! ## Buffers -/

/-- In a state that meets the invariant every cell holds exactly `size(r)` bytes (R21). -/
theorem buf_length {s : State} (h : s.wf = true) (r : Reg) : (buf s.cells r).length = cellSize s.cfg r := by
  have := (wf_iff s).1 h
  cases r <;> simp [buf, cellSize, this]

/-- No cell is longer than 8 bytes (R10). -/
theorem cellSize_le {s : State} (h : s.wf = true) (r : Reg) : cellSize s.cfg r ≤ 8 := by
  have := (wf_iff s).1 h
  cases r <;> simp [cellSize]; omega

/-- Replacing a buffer by one of the same length gives that buffer. -/
theorem buf_setBuf_same (c : Cells) (r : Reg) {bs : List Byte} (h : bs.length = (buf c r).length) :
    buf (setBuf c r bs) r = bs := by
  cases r with
  | pc =>
    obtain ⟨x, y, rfl⟩ : ∃ x y, bs = [x, y] := List.length_eq_two.1 h
    have hx : (x ++ y).extractLsb' 8 8 = x := by
      ext i hi
      rw [BitVec.getElem_extractLsb', BitVec.getLsbD_append, if_neg (by omega), Nat.add_sub_cancel_left,
        BitVec.getLsbD_eq_getElem hi]
    have hy : (x ++ y).extractLsb' 0 8 = y := by
      ext i hi
      rw [BitVec.getElem_extractLsb', BitVec.getLsbD_append, Nat.zero_add, if_pos hi,
        BitVec.getLsbD_eq_getElem hi]
    simp [buf, setBuf, hx, hy]
  | gen => rfl
  | sp | a | x | y | p =>
    obtain ⟨x, rfl⟩ : ∃ x, bs = [x] := List.length_eq_one_iff.1 h
    rfl

/-- A write to one cell never changes another (R22). -/
theorem buf_setBuf_other (c : Cells) {r r' : Reg} (h : r' ≠ r) (bs : List Byte) :
    buf (setBuf c r bs) r' = buf c r' := by
  cases r <;> cases r' <;> first | rfl | exact absurd rfl h

theorem setBuf_setBuf (c : Cells) (r : Reg) (bs bs' : List Byte) :
    setBuf (setBuf c r bs) r bs' = setBuf c r bs' := by
  cases r <;> rfl

/-- Replacing a buffer by one of the same length keeps the size invariant (R21). -/
theorem wf_setBuf {s : State} (h : s.wf = true) (r : Reg) {bs : List Byte}
    (hl : bs.length = (buf s.cells r).length) (resp : Option Response) :
    State.wf { s with cells := setBuf s.cells r bs, response := resp } = true := by
  rw [wf_iff] at h ⊢
  cases r <;> simp_all [setBuf, buf]

/-! ## Storing bytes -/

@[simp] theorem storeBytes_length (new bs : List Byte) (off : Nat) :
    (storeBytes bs off new).length = bs.length := by
  induction new generalizing bs off with
  | nil => rfl
  | cons b rest ih => simp [storeBytes, ih]

/-- R53: the stored bytes stand at `off` on, and every other byte is as it was. -/
theorem storeBytes_getElem? (new bs : List Byte) (off k : Nat) (h : off + new.length ≤ bs.length) :
    (storeBytes bs off new)[k]? =
      if off ≤ k ∧ k < off + new.length then new[k - off]? else bs[k]? := by
  induction new generalizing bs off with
  | nil => simp [storeBytes, show ¬(off ≤ k ∧ k < off) by omega]
  | cons b rest ih =>
    simp only [List.length_cons] at h ⊢
    rw [storeBytes, ih _ _ (by simp; omega), List.getElem?_set]
    by_cases h1 : off + 1 ≤ k ∧ k < off + 1 + rest.length
    · obtain ⟨m, rfl⟩ : ∃ m, k = off + 1 + m := ⟨k - off - 1, by omega⟩
      simp [h1, show off ≤ off + 1 + m ∧ off + 1 + m < off + (rest.length + 1) by omega,
        show off + 1 + m - off = m + 1 by omega]
    · rw [if_neg h1]
      by_cases h2 : off = k
      · subst h2
        simp [show off < bs.length by omega]
      · simp [h2, show ¬(off ≤ k ∧ k < off + (rest.length + 1)) by omega]

/-- Two stores of one byte and of bytes further on may be swapped. -/
theorem storeBytes_set (new bs : List Byte) {off j : Nat} (b : Byte) (h : j < off) :
    storeBytes (bs.set j b) off new = (storeBytes bs off new).set j b := by
  induction new generalizing bs off with
  | nil => rfl
  | cons c rest ih => rw [storeBytes, storeBytes, List.set_comm _ _ (by omega), ih _ (by omega)]

/-- Storing the same bytes again changes nothing (R62). -/
theorem storeBytes_storeBytes (new bs : List Byte) (off : Nat) :
    storeBytes (storeBytes bs off new) off new = storeBytes bs off new := by
  induction new generalizing bs off with
  | nil => rfl
  | cons b rest ih =>
    rw [storeBytes, storeBytes, ← storeBytes_set _ _ _ (Nat.lt_succ_self off), List.set_set, ih]

/-! ## Big-endian integers -/

@[simp] theorem bytesOf_length (n : Nat) (v : Data) : (bytesOf n v).length = n := by
  induction n with
  | zero => rfl
  | succ n ih => simp [bytesOf, ih]

/-- R53: byte k of an n-byte value is `v[8(n-k)-1 : 8(n-k)-8]`. -/
theorem bytesOf_getElem? {n k : Nat} (v : Data) (h : k < n) :
    (bytesOf n v)[k]? = some (v.extractLsb' (8 * (n - 1 - k)) 8) := by
  induction n generalizing k with
  | zero => omega
  | succ n ih =>
    cases k with
    | zero => simp [bytesOf]
    | succ k => simp [bytesOf, ih (show k < n by omega), show n - 1 - k = n + 1 - 1 - (k + 1) by omega]

/-- R52: bit j of the concatenation is bit `j % 8` of the byte that stands `j / 8` bytes before the last. -/
theorem concatBytes_getLsbD (bs : List Byte) (h : bs.length ≤ 8) (j : Nat) :
    (concatBytes bs).getLsbD j =
      (decide (j < 8 * bs.length) && (bs.getD (bs.length - 1 - j / 8) 0#8).getLsbD (j % 8)) := by
  induction bs using List.reverseRecOn generalizing j with
  | nil => simp [concatBytes]
  | append_singleton bs b ih =>
    have hstep : concatBytes (bs ++ [b]) = concatBytes bs <<< 8 ||| b.setWidth 64 := by
      simp [concatBytes, List.foldl_append]
    simp only [List.length_append, List.length_singleton] at h ⊢
    rw [hstep, BitVec.getLsbD_or, BitVec.getLsbD_shiftLeft, BitVec.getLsbD_setWidth, ih (by omega)]
    by_cases hj : j < 8
    · have : bs.length + 1 - 1 - j / 8 = bs.length := by omega
      have hd : (bs ++ [b]).getD (bs.length + 1 - 1 - j / 8) 0#8 = b := by rw [this]; simp
      rw [hd, Nat.mod_eq_of_lt hj]
      simp [hj, show j < 64 by omega, show j < 8 * (bs.length + 1) by omega]
    · have hb : b.getLsbD j = false := BitVec.getLsbD_of_ge _ _ (by omega)
      by_cases hl : j < 8 * (bs.length + 1)
      · have h1 : bs.length - 1 - (j - 8) / 8 = bs.length + 1 - 1 - j / 8 := by omega
        have h2 : bs.length + 1 - 1 - j / 8 < bs.length := by omega
        have h3 : (j - 8) % 8 = j % 8 := by omega
        have hd : (bs ++ [b]).getD (bs.length + 1 - 1 - j / 8) 0#8 = bs.getD (bs.length + 1 - 1 - j / 8) 0#8 := by
          rw [List.getD_append _ _ _ _ h2]
        rw [hd, h1, h3]
        simp [hj, hb, hl, show j < 64 by omega, show j - 8 < 8 * bs.length by omega]
      · simp [hb, hl, show ¬j - 8 < 8 * bs.length by omega]

/-- R52: byte k of the concatenation of n bytes stands at bits `8(n-k)-1 : 8(n-k)-8`. -/
theorem concatBytes_extract (bs : List Byte) (h : bs.length ≤ 8) {k : Nat} (hk : k < bs.length) :
    bs[k]? = some ((concatBytes bs).extractLsb' (8 * (bs.length - 1 - k)) 8) := by
  rw [List.getElem?_eq_getElem hk, Option.some_inj]
  ext i hi
  have h1 : (8 * (bs.length - 1 - k) + i) / 8 = bs.length - 1 - k := by omega
  have h2 : (8 * (bs.length - 1 - k) + i) % 8 = i := by omega
  rw [BitVec.getElem_extractLsb', concatBytes_getLsbD _ h, h1, h2,
    show bs.length - 1 - (bs.length - 1 - k) = k by omega]
  simp [show 8 * (bs.length - 1 - k) + i < 8 * bs.length by omega, hk, BitVec.getLsbD_eq_getElem hi]

/-- A value of n bytes is below `256 ^ n`. -/
theorem concatBytes_lt (bs : List Byte) (h : bs.length ≤ 8) : (concatBytes bs).toNat < 256 ^ bs.length := by
  rw [show (256 : Nat) = 2 ^ 8 from rfl, ← Nat.pow_mul]
  refine Nat.lt_pow_two_of_testBit _ fun j hj => ?_
  rw [BitVec.testBit_toNat, concatBytes_getLsbD _ h]
  simp [show ¬j < 8 * bs.length by omega]

/-- Reading back the bytes of a value gives its low `8n` bits (R52, R53). -/
theorem concatBytes_bytesOf {n : Nat} (h : n ≤ 8) (v : Data) :
    concatBytes (bytesOf n v) = (v.setWidth (8 * n)).setWidth 64 := by
  apply BitVec.eq_of_getLsbD_eq
  intro j hj
  rw [concatBytes_getLsbD _ (by simpa using h)]
  by_cases hn : j < 8 * n
  · have hk : n - 1 - j / 8 < n := by omega
    have hx : 8 * (n - 1 - (n - 1 - j / 8)) + j % 8 = j := by omega
    simp [List.getD_eq_getElem?_getD, bytesOf_getElem? v hk, hn, hx, hj, Nat.mod_lt]
  · simp [hn]

/-- A value that fits n bytes is its low `8n` bits. -/
theorem setWidth_setWidth_of_lt {v : Data} {m : Nat} (h : v.toNat < 2 ^ m) : (v.setWidth m).setWidth 64 = v := by
  apply BitVec.eq_of_toNat_eq
  rw [BitVec.toNat_setWidth, BitVec.toNat_setWidth, Nat.mod_eq_of_lt h, Nat.mod_eq_of_lt v.isLt]

/-- The low byte, both ways of writing it. -/
theorem extract_low_byte (v : Data) : v.extractLsb' 0 8 = v.setWidth 8 := by
  ext i hi
  simp

/-- PC's two bytes of a value are its low 16 bits (R28, R53). -/
theorem append_bytes (v : Data) : (v.extractLsb' 8 8 ++ v.extractLsb' 0 8 : BitVec 16) = v.setWidth 16 := by
  apply BitVec.eq_of_getLsbD_eq
  intro i hi
  rw [BitVec.getLsbD_append]
  by_cases h : i < 8
  · simp [h, hi]
  · simp [h, hi, show i - 8 < 8 by omega, show 8 + (i - 8) = i by omega]

/-- PC as an integer (R56). -/
theorem memRead_pc (c : Cells) : memRead c .pc 0 2 = c.pc.setWidth 64 := by
  apply BitVec.eq_of_getLsbD_eq
  intro j hj
  rw [memRead, concatBytes_getLsbD _ (by simp [buf])]
  by_cases h : j < 8
  · simp [buf, show j / 8 = 0 by omega, hj, Nat.mod_eq_of_lt h, show j < 16 by omega, h]
  · by_cases h' : j < 16
    · simp [buf, show j / 8 = 1 by omega, hj, h', show j % 8 < 8 by omega, show 8 + j % 8 = j by omega]
    · simp [buf, h', BitVec.getLsbD_of_ge c.pc j (by omega)]

/-- Writing PC as an integer (R105). -/
theorem memWrite_pc (c : Cells) (v : Data) : memWrite c .pc 0 2 v = { c with pc := v.setWidth 16 } := by
  simp only [memWrite, setBuf, buf, bytesOf, storeBytes, List.set_cons_zero, List.set_cons_succ, List.getD_cons_zero,
    List.getD_cons_succ, Nat.mul_one, Nat.mul_zero, append_bytes]

end Sys2Proof.Machine
end

