-- ==== Sys2Proof/Laws/Operands.lean ====
section
/-! SUPPORT. What the operand checks do: each answers its error or goes on. -/

namespace Sys2Proof.Machine

/-- R102's test, as a comparison. -/
theorem fits_iff (d : Data) (m : Nat) : (m = 64 ∨ d >>> m = 0#64) ↔ d.toNat < 2 ^ m := by
  have h : d >>> m = 0#64 ↔ d.toNat < 2 ^ m := by
    rw [← BitVec.toNat_inj, BitVec.toNat_ushiftRight, Nat.shiftRight_eq_div_pow]
    simp [Nat.div_eq_zero_iff]
  constructor
  · rintro (rfl | h')
    · exact d.isLt
    · exact h.1 h'
  · exact fun h' => .inr (h.2 h')

/-- R102: a value that fits, or any value under Truncate, is stored as its low m bits. -/
theorem fit_of_fits {p : OversizePolicy} {d : Data} {m : Nat} (h : d.toNat < 2 ^ m ∨ p = .truncate) :
    fit p d m = some ((d.setWidth m).setWidth 64) := by
  unfold fit
  split
  · rfl
  · obtain h | rfl := h
    · exact absurd ((fits_iff d m).2 h) ‹_›
    · rfl

/-- R102, R164: under Reject a value that does not fit raises. -/
theorem fit_reject {d : Data} {m : Nat} (h : 2 ^ m ≤ d.toNat) : fit .reject d m = none := by
  simp [fit, fits_iff, Nat.not_lt.2 h]

theorem withFit_of_fits {s : State} {m : Nat} (h : s.d.toNat < 2 ^ m ∨ s.cfg.policy = .truncate)
    (go : Data → Result) : withFit m s go = go ((s.d.setWidth m).setWidth 64) := by
  simp [withFit, fit_of_fits h]

theorem withFit_reject {s : State} {m : Nat} (h : 2 ^ m ≤ s.d.toNat) (hp : s.cfg.policy = .reject)
    (go : Data → Result) : withFit m s go = raise .valueOutOfRange s := by
  simp [withFit, hp, fit_reject h]

/-- The oversize check either goes on with the low m bits or, under Reject and with a value too wide, raises. -/
theorem withFit_cases (m : Nat) (s : State) (go : Data → Result) :
    (s.d.toNat < 2 ^ m ∨ s.cfg.policy = .truncate) ∧ withFit m s go = go ((s.d.setWidth m).setWidth 64) ∨
    (2 ^ m ≤ s.d.toNat ∧ s.cfg.policy = .reject) ∧ withFit m s go = raise .valueOutOfRange s := by
  by_cases h : s.d.toNat < 2 ^ m ∨ s.cfg.policy = .truncate
  · exact .inl ⟨h, withFit_of_fits h go⟩
  · have hp : s.cfg.policy = .reject := by
      cases hc : s.cfg.policy with
      | reject => rfl
      | truncate => exact absurd (.inr hc) h
    have hd : 2 ^ m ≤ s.d.toNat := by omega
    exact .inr ⟨⟨hd, hp⟩, withFit_reject hd hp go⟩

/-- R100, as the spec's disjunction. -/
theorem legalWidth_iff (n : Nat) : legalWidth n = true ↔ n = 1 ∨ n = 2 ∨ n = 4 ∨ n = 8 := by
  simp [legalWidth, or_assoc]

/-- R101, as the spec's conditional. -/
theorem effWidth_eq (r : Reg) (sel : Nat) :
    effWidth r sel = if r = .pc then 2 else if r = .sp then 1 else sel := by
  cases r <;> rfl

/-- The checks of RDI and WRI, in order (R116). -/
theorem withWidth_cases (r : Reg) (off sel : Nat) (s : State) (go : Nat → Result) :
    legalWidth (effWidth r sel) = false ∧ withWidth r off sel s go = raise .unsupportedWidth s ∨
    (legalWidth (effWidth r sel) = true ∧ cellSize s.cfg r < off + effWidth r sel) ∧
      withWidth r off sel s go = raise .indexOutOfBounds s ∨
    (legalWidth (effWidth r sel) = true ∧ off + effWidth r sel ≤ cellSize s.cfg r) ∧
      withWidth r off sel s go = go (effWidth r sel) := by
  unfold withWidth
  by_cases h : legalWidth (effWidth r sel) = true
  · by_cases hb : cellSize s.cfg r < off + effWidth r sel
    · simp [h, hb]
    · simp [h, hb, Nat.not_lt.1 hb]
  · simp [h]

/-- A legal width inside the cell goes on. -/
theorem withWidth_ok {r : Reg} {off sel : Nat} {s : State} (hl : legalWidth (effWidth r sel) = true)
    (hb : off + effWidth r sel ≤ cellSize s.cfg r) (go : Nat → Result) :
    withWidth r off sel s go = go (effWidth r sel) := by
  rw [withWidth, if_pos hl, if_neg (Nat.not_lt.2 hb)]

/-- The bounds check of RDB and WRB (R93). -/
theorem withByte_cases (r : Reg) (off : Nat) (s : State) (go : Result) :
    cellSize s.cfg r ≤ off ∧ withByte r off s go = raise .indexOutOfBounds s ∨
    off < cellSize s.cfg r ∧ withByte r off s go = go := by
  unfold withByte
  by_cases h : cellSize s.cfg r ≤ off
  · simp [h]
  · simp [h, Nat.not_le.1 h]

/-- The bit-index check (R122). -/
theorem withBit_cases (i : Nat) (s : State) (go : Result) :
    7 < i ∧ withBit i s go = raise .indexOutOfBounds s ∨ i ≤ 7 ∧ withBit i s go = go := by
  unfold withBit
  by_cases h : 7 < i
  · simp [h]
  · simp [h, Nat.not_lt.1 h]

end Sys2Proof.Machine
end

