-- ==== Sys2Proof/Laws/Exec.lean ====
section
/-! SUPPORT. What an instruction can do, said once: it changes the response, or it stores one buffer of unchanged
length in the cell it writes and responds OK. -/

namespace Sys2Proof.Machine

/-- The outcome shape shared by every instruction that writes cell `w` (none: it writes no cell). rdata is 0 on every
error and on every write (R77). -/
def Effect (w : Option Reg) (s : State) (res : Result) : Prop :=
  (∃ resp : Response, res = .next { s with response := some resp } ∧ (resp.status ≠ .ok ∨ w ≠ none → resp.rdata = 0#64)) ∨
  ∃ (r : Reg) (bs : List Byte), w = some r ∧ bs.length = (buf s.cells r).length ∧
    res = .next { s with cells := setBuf s.cells r bs, response := some ⟨.ok, 0#64⟩ }

theorem Effect.respond (v : Data) (s : State) : Effect none s (respond v s) :=
  .inl ⟨⟨.ok, v⟩, rfl, by simp⟩

theorem Effect.raise {w : Option Reg} (e : Status) (s : State) : Effect w s (raise e s) :=
  .inl ⟨⟨e, 0#64⟩, rfl, fun _ => rfl⟩

theorem Effect.withFit {w : Option Reg} {m : Nat} {s : State} {go : Data → Result}
    (h : ∀ v, Effect w s (go v)) : Effect w s (withFit m s go) := by
  obtain ⟨-, e⟩ | ⟨-, e⟩ := withFit_cases m s go
  · exact e ▸ h _
  · exact e ▸ .raise _ s

theorem Effect.withWidth {w : Option Reg} {r : Reg} {off sel : Nat} {s : State} {go : Nat → Result}
    (h : ∀ n, Effect w s (go n)) : Effect w s (withWidth r off sel s go) := by
  obtain ⟨-, e⟩ | ⟨-, e⟩ | ⟨-, e⟩ := withWidth_cases r off sel s go
  · exact e ▸ .raise _ s
  · exact e ▸ .raise _ s
  · exact e ▸ h _

theorem Effect.withByte {w : Option Reg} {r : Reg} {off : Nat} {s : State} {go : Result}
    (h : Effect w s go) : Effect w s (withByte r off s go) := by
  obtain ⟨-, e⟩ | ⟨-, e⟩ := withByte_cases r off s go
  · exact e ▸ .raise _ s
  · rwa [e]

theorem Effect.withBit {w : Option Reg} {i : Nat} {s : State} {go : Result}
    (h : Effect w s go) : Effect w s (withBit i s go) := by
  obtain ⟨-, e⟩ | ⟨-, e⟩ := withBit_cases i s go
  · exact e ▸ .raise _ s
  · rwa [e]

theorem Effect.storeStatus (b : Byte) (s : State) : Effect (some .p) s (Machine.respond 0#64 (storeStatus b s)) :=
  .inr ⟨.p, [b], rfl, rfl, rfl⟩

theorem Effect.readNamedFlag (i : Nat) (s : State) : Effect none s (readNamedFlag i s) := .respond _ s

theorem Effect.writeNamedFlag (a b : Byte) (s : State) : Effect (some .p) s (writeNamedFlag a b s) :=
  .withFit fun _ => .storeStatus _ s

/-- What an instruction can do (R160, R22, R61). -/
theorem exec_effect (i : Instr) (s : State) : Effect i.writes s (exec i s) := by
  cases i with
  | rdb r off => exact .withByte (.respond _ s)
  | wrb r off => exact .withByte (.withFit fun _ => .inr ⟨r, _, rfl, List.length_set, rfl⟩)
  | rdi r off sel => exact .withWidth fun _ => .respond _ s
  | wri r off sel =>
    exact .withWidth fun _ => .withFit fun _ => .inr ⟨r, _, rfl, storeBytes_length _ _ _, rfl⟩
  | rdv r => exact .respond _ s
  | rds r => exact .respond _ s
  | frd i => exact .withBit (.respond _ s)
  | fwr i => exact .withBit (.withFit fun _ => .storeStatus _ s)
  | bvg i => exact .withBit (.withFit fun _ => .respond _ s)
  | bvs i => exact .withBit (.withFit fun _ => .respond _ s)
  | getC | getZ | getI | getD | getU3 | getU2 | getV | getN => exact .readNamedFlag _ s
  | setC | setZ | setI | setD | setU3 | setU2 | setV | setN => exact .writeNamedFlag _ _ s

/-- Every instruction answers a next state: the block has no stop (R170). -/
theorem exec_next (i : Instr) (s : State) : ∃ t, exec i s = .next t := by
  obtain ⟨_, e, -⟩ | ⟨_, _, -, -, e⟩ := exec_effect i s <;> exact ⟨_, e⟩

/-- The frame of every instruction: only the cells and the response can differ, and it always responds. -/
theorem exec_frame {i : Instr} {s t : State} (h : exec i s = .next t) :
    t.cfg = s.cfg ∧ t.d = s.d ∧ t.requests = s.requests ∧ t.response.isSome = true := by
  obtain ⟨_, e, -⟩ | ⟨_, _, -, -, e⟩ := exec_effect i s <;>
  · rw [e] at h
    cases h
    exact ⟨rfl, rfl, rfl, rfl⟩

/-- Every instruction keeps the size invariant (R21). -/
theorem exec_wf {i : Instr} {s t : State} (h : exec i s = .next t) (hw : s.wf = true) : t.wf = true := by
  obtain ⟨_, e, -⟩ | ⟨r, bs, -, hl, e⟩ := exec_effect i s <;>
  · rw [e] at h
    cases h
    first | exact hw | exact wf_setBuf hw r hl _

/-- An instruction reads the cells, the parameters and the data input, and nothing of an earlier response (R171). -/
theorem exec_congr (i : Instr) {s u : State} (hc : s.cells = u.cells) (hg : s.cfg = u.cfg)
    (hq : s.requests = u.requests) (hd : s.d = u.d) : exec i s = exec i u := by
  cases i <;> simp only [exec, execRdb, execWrb, execRdi, execWri, execRdv, execRds, execFrd, execFwr, execBvg,
    execBvs, withByte, withWidth, withBit, withFit, raise, respond, storeStatus, hc, hg, hq, hd,
    execGetC, execSetC, execGetZ, execSetZ, execGetI, execSetI, execGetD, execSetD, execGetU3, execSetU3,
    execGetU2, execSetU2, execGetV, execSetV, execGetN, execSetN, readNamedFlag, writeNamedFlag]

/-! ## Flags -/

/-- R120: the masked test is the bit. -/
theorem bvGet_eq (b : Byte) {i : Nat} (h : i < 8) : bvGet b i = b.getLsbD i := by
  revert b
  have : i = 0 ∨ i = 1 ∨ i = 2 ∨ i = 3 ∨ i = 4 ∨ i = 5 ∨ i = 6 ∨ i = 7 := by omega
  obtain rfl | rfl | rfl | rfl | rfl | rfl | rfl | rfl := this <;> decide

/-- R121: the forced bit takes the value, every other bit is as it was. -/
theorem bvSet_getLsbD (b : Byte) {i j : Nat} (v : Bool) (hj : j < 8) :
    (bvSet b i v).getLsbD j = if j = i then v else b.getLsbD j := by
  by_cases hij : j = i
  · subst hij; cases v <;> simp [bvSet, hj]
  · cases v <;> simp [bvSet, hj, hij] <;> intros <;> omega

end Sys2Proof.Machine
end

