-- ==== Sys2Proof/Laws/PerInstr.lean ====
section
/-! SUPPORT. Per instruction: its word has the `match` bits of its row of spec/opcode_table.json under the row's `mask`. -/

namespace Sys2Proof.Laws

/-- The `mask` and `match` of an instruction's row of spec/opcode_table.json. -/
def RowMatch.row : Instr → CmdWord × CmdWord
  | .rdb _ _ => (0xF10F#16, 0x0000#16)
  | .wrb _ _ => (0xF10F#16, 0x1000#16)
  | .rdi _ _ _ => (0xF100#16, 0x2000#16)
  | .wri _ _ _ => (0xF100#16, 0x3000#16)
  | .rdv _ => (0xF1FF#16, 0x4000#16)
  | .rds _ => (0xF1FF#16, 0x5000#16)
  | .frd _ => (0xFFF0#16, 0x6A00#16)
  | .fwr _ => (0xFFF0#16, 0x7A00#16)
  | .bvg _ => (0xFFF0#16, 0x8000#16)
  | .bvs _ => (0xFFF0#16, 0x9000#16)
  | .getC => (0xFFFF#16, 0x6A07#16)
  | .setC => (0xFFFF#16, 0x7A07#16)
  | .getZ => (0xFFFF#16, 0x6A06#16)
  | .setZ => (0xFFFF#16, 0x7A06#16)
  | .getI => (0xFFFF#16, 0x6A05#16)
  | .setI => (0xFFFF#16, 0x7A05#16)
  | .getD => (0xFFFF#16, 0x6A04#16)
  | .setD => (0xFFFF#16, 0x7A04#16)
  | .getU3 => (0xFFFF#16, 0x6A03#16)
  | .setU3 => (0xFFFF#16, 0x7A03#16)
  | .getU2 => (0xFFFF#16, 0x6A02#16)
  | .setU2 => (0xFFFF#16, 0x7A02#16)
  | .getV => (0xFFFF#16, 0x6A01#16)
  | .setV => (0xFFFF#16, 0x7A01#16)
  | .getN => (0xFFFF#16, 0x6A00#16)
  | .setN => (0xFFFF#16, 0x7A00#16)

/-- The word of a well-formed instruction is one of its row's words. -/
def RowMatch.Statement (i : Instr) : Prop :=
  i.wellFormed = true → encode i &&& (RowMatch.row i).1 = (RowMatch.row i).2

theorem and_or4 (a b c e m : CmdWord) : (a ||| b ||| c ||| e) &&& m = a &&& m ||| b &&& m ||| c &&& m ||| e &&& m := by
  ext i hi
  simp only [BitVec.getElem_and, BitVec.getElem_or, Bool.and_or_distrib_right]

theorem RowMatch.rdb (r : Reg) (off : Nat) : RowMatch.Statement (.rdb r off) := by
  intro h
  have hoff : ∀ n, n < 16 → BitVec.ofNat 16 n <<< 4 &&& 0xF10F#16 = 0#16 := by decide
  rw [encode, makeWord, row, and_or4, hoff _ ((fieldFits_iff _).1 h)]
  cases r <;> decide

theorem RowMatch.wrb (r : Reg) (off : Nat) : RowMatch.Statement (.wrb r off) := by
  intro h
  have hoff : ∀ n, n < 16 → BitVec.ofNat 16 n <<< 4 &&& 0xF10F#16 = 0#16 := by decide
  rw [encode, makeWord, row, and_or4, hoff _ ((fieldFits_iff _).1 h)]
  cases r <;> decide

theorem RowMatch.rdi (r : Reg) (off : Nat) (sel : Nat) : RowMatch.Statement (.rdi r off sel) := by
  intro h
  simp only [Instr.wellFormed, Bool.and_eq_true, fieldFits_iff] at h
  have hoff : ∀ n, n < 16 → BitVec.ofNat 16 n <<< 4 &&& 0xF100#16 = 0#16 := by decide
  have hsel : ∀ n, n < 16 → BitVec.ofNat 16 n &&& 0xF100#16 = 0#16 := by decide
  rw [encode, makeWord, row, and_or4, hoff _ h.1, hsel _ h.2]
  cases r <;> decide

theorem RowMatch.wri (r : Reg) (off : Nat) (sel : Nat) : RowMatch.Statement (.wri r off sel) := by
  intro h
  simp only [Instr.wellFormed, Bool.and_eq_true, fieldFits_iff] at h
  have hoff : ∀ n, n < 16 → BitVec.ofNat 16 n <<< 4 &&& 0xF100#16 = 0#16 := by decide
  have hsel : ∀ n, n < 16 → BitVec.ofNat 16 n &&& 0xF100#16 = 0#16 := by decide
  rw [encode, makeWord, row, and_or4, hoff _ h.1, hsel _ h.2]
  cases r <;> decide

theorem RowMatch.rdv (r : Reg) : RowMatch.Statement (.rdv r) := by
  intro _; cases r <;> decide

theorem RowMatch.rds (r : Reg) : RowMatch.Statement (.rds r) := by
  intro _; cases r <;> decide

theorem RowMatch.frd (sel : Nat) : RowMatch.Statement (.frd sel) := by
  intro h
  have hsel : ∀ n, n < 16 → BitVec.ofNat 16 n &&& 0xFFF0#16 = 0#16 := by decide
  rw [encode, makeWord, row, and_or4, hsel _ ((fieldFits_iff _).1 h)]
  decide

theorem RowMatch.fwr (sel : Nat) : RowMatch.Statement (.fwr sel) := by
  intro h
  have hsel : ∀ n, n < 16 → BitVec.ofNat 16 n &&& 0xFFF0#16 = 0#16 := by decide
  rw [encode, makeWord, row, and_or4, hsel _ ((fieldFits_iff _).1 h)]
  decide

theorem RowMatch.bvg (sel : Nat) : RowMatch.Statement (.bvg sel) := by
  intro h
  have hsel : ∀ n, n < 16 → BitVec.ofNat 16 n &&& 0xFFF0#16 = 0#16 := by decide
  rw [encode, makeWord, row, and_or4, hsel _ ((fieldFits_iff _).1 h)]
  decide

theorem RowMatch.bvs (sel : Nat) : RowMatch.Statement (.bvs sel) := by
  intro h
  have hsel : ∀ n, n < 16 → BitVec.ofNat 16 n &&& 0xFFF0#16 = 0#16 := by decide
  rw [encode, makeWord, row, and_or4, hsel _ ((fieldFits_iff _).1 h)]
  decide

theorem RowMatch.getC : RowMatch.Statement .getC := by
  intro _; decide

theorem RowMatch.setC : RowMatch.Statement .setC := by
  intro _; decide

theorem RowMatch.getZ : RowMatch.Statement .getZ := by
  intro _; decide

theorem RowMatch.setZ : RowMatch.Statement .setZ := by
  intro _; decide

theorem RowMatch.getI : RowMatch.Statement .getI := by
  intro _; decide

theorem RowMatch.setI : RowMatch.Statement .setI := by
  intro _; decide

theorem RowMatch.getD : RowMatch.Statement .getD := by
  intro _; decide

theorem RowMatch.setD : RowMatch.Statement .setD := by
  intro _; decide

theorem RowMatch.getU3 : RowMatch.Statement .getU3 := by
  intro _; decide

theorem RowMatch.setU3 : RowMatch.Statement .setU3 := by
  intro _; decide

theorem RowMatch.getU2 : RowMatch.Statement .getU2 := by
  intro _; decide

theorem RowMatch.setU2 : RowMatch.Statement .setU2 := by
  intro _; decide

theorem RowMatch.getV : RowMatch.Statement .getV := by
  intro _; decide

theorem RowMatch.setV : RowMatch.Statement .setV := by
  intro _; decide

theorem RowMatch.getN : RowMatch.Statement .getN := by
  intro _; decide

theorem RowMatch.setN : RowMatch.Statement .setN := by
  intro _; decide

end Sys2Proof.Laws
end

