-- ==== Sys2Proof/Laws/Status.lean ====
section
/-! SUPPORT. The status each instruction responds with, in one place: the table of R166 in the order of R167. -/

namespace Sys2Proof.Machine

/-- The status of the oversize check of m bits (R102). -/
def fitStatus (m : Nat) (s : State) : Status :=
  if s.d.toNat < 2 ^ m ∨ s.cfg.policy = .truncate then .ok else .valueOutOfRange

/-- The status of an index check, and of what follows it. -/
def indexStatus (bad : Prop) [Decidable bad] (next : Status) : Status := if bad then .indexOutOfBounds else next

/-- The status of the width and bounds checks (R116), and of what follows them. -/
def widthStatus (r : Reg) (off sel : Nat) (s : State) (next : Status) : Status :=
  if legalWidth (effWidth r sel) then indexStatus (cellSize s.cfg r < off + effWidth r sel) next
  else .unsupportedWidth

/-- R166, row by row. -/
def expectedStatus (s : State) : Instr → Status
  | .rdb r off => indexStatus (cellSize s.cfg r ≤ off) .ok
  | .wrb r off => indexStatus (cellSize s.cfg r ≤ off) (fitStatus 8 s)
  | .rdi r off sel => widthStatus r off sel s .ok
  | .wri r off sel => widthStatus r off sel s (fitStatus (8 * effWidth r sel) s)
  | .rdv _ => .ok
  | .rds _ => .ok
  | .frd i => indexStatus (7 < i) .ok
  | .fwr i => indexStatus (7 < i) (fitStatus 1 s)
  | .bvg i => indexStatus (7 < i) (fitStatus 8 s)
  | .bvs i => indexStatus (7 < i) (fitStatus 9 s)
  | .getC => .ok
  | .setC => fitStatus 1 s
  | .getZ => .ok
  | .setZ => fitStatus 1 s
  | .getI => .ok
  | .setI => fitStatus 1 s
  | .getD => .ok
  | .setD => fitStatus 1 s
  | .getU3 => .ok
  | .setU3 => fitStatus 1 s
  | .getU2 => .ok
  | .setU2 => fitStatus 1 s
  | .getV => .ok
  | .setV => fitStatus 1 s
  | .getN => .ok
  | .setN => fitStatus 1 s

/-- The result is a next state whose response has status `e`. -/
def Responds (e : Status) (res : Result) : Prop :=
  ∃ t resp, res = .next t ∧ t.response = some resp ∧ resp.status = e

theorem Responds.respond (v : Data) (s : State) : Responds .ok (respond v s) := ⟨_, _, rfl, rfl, rfl⟩

theorem Responds.raise (e : Status) (s : State) : Responds e (raise e s) := ⟨_, _, rfl, rfl, rfl⟩

theorem Responds.withFit {m : Nat} {s : State} {go : Data → Result} (h : ∀ v, Responds .ok (go v)) :
    Responds (fitStatus m s) (withFit m s go) := by
  obtain ⟨h1, e⟩ | ⟨⟨h1, h2⟩, e⟩ := withFit_cases m s go
  · rw [e, fitStatus, if_pos h1]
    exact h _
  · rw [e, fitStatus, if_neg (by simp [h2, h1])]
    exact .raise _ s

theorem Responds.withBit {i : Nat} {s : State} {go : Result} {e : Status} (h : Responds e go) :
    Responds (indexStatus (7 < i) e) (withBit i s go) := by
  unfold indexStatus Machine.withBit
  split
  · exact .raise _ s
  · exact h

theorem Responds.withByte {r : Reg} {off : Nat} {s : State} {go : Result} {e : Status} (h : Responds e go) :
    Responds (indexStatus (cellSize s.cfg r ≤ off) e) (withByte r off s go) := by
  unfold indexStatus Machine.withByte
  split
  · exact .raise _ s
  · exact h

theorem Responds.withWidth {r : Reg} {off sel : Nat} {s : State} {go : Nat → Result} {e : Status}
    (h : Responds e (go (effWidth r sel))) : Responds (widthStatus r off sel s e) (withWidth r off sel s go) := by
  unfold widthStatus indexStatus Machine.withWidth
  split
  · split
    · exact .raise _ s
    · exact h
  · exact .raise _ s

/-- R165, R166, R167: every instruction responds with the status its row of R166 gives it. -/
theorem exec_responds (i : Instr) (s : State) : Responds (expectedStatus s i) (exec i s) := by
  cases i with
  | rdb r off => exact .withByte (.respond _ s)
  | wrb r off => exact .withByte (.withFit fun _ => .respond _ _)
  | rdi r off sel =>
    exact .withWidth (go := fun n => respond (memRead s.cells r off n) s) (.respond _ s)
  | wri r off sel =>
    exact .withWidth
      (go := fun n => Machine.withFit (8 * n) s fun v => respond 0#64 { s with cells := memWrite s.cells r off n v })
      (.withFit fun _ => .respond _ _)
  | rdv r => exact .respond _ s
  | rds r => exact .respond _ s
  | frd i => exact .withBit (.respond _ s)
  | fwr i => exact .withBit (.withFit fun _ => .respond _ _)
  | bvg i => exact .withBit (.withFit fun _ => .respond _ s)
  | bvs i => exact .withBit (.withFit fun _ => .respond _ s)
  | getC | getZ | getI | getD | getU3 | getU2 | getV | getN => exact .respond _ s
  | setC | setZ | setI | setD | setU3 | setU2 | setV | setN => exact .withFit fun _ => .respond _ _

/-- The status a next state shows is the expected one. -/
theorem exec_status {i : Instr} {s t : State} {resp : Response} (h : exec i s = .next t)
    (hr : t.response = some resp) : resp.status = expectedStatus s i := by
  obtain ⟨u, resp', hu, hr', he⟩ := exec_responds i s
  cases h.symm.trans hu
  cases hr.symm.trans hr'
  exact he

end Sys2Proof.Machine
end

