-- ==== Sys2Proof/Laws/Step.lean ====
section
/-! SUPPORT. What a step can do, said once. -/

namespace Sys2Proof.Machine

/-- A step idles, resets, raises IllegalCommand, or runs the instruction its word decodes to (R70, R163, R180). -/
theorem step_cases (s : State) :
    (s.requests = [] ∧ step s = .next { s with response := none }) ∨
    (∃ rest, s.requests = .reset :: rest ∧
      step s = .next { s with cells := Cells.zero s.cfg.rsize, requests := rest, response := none }) ∨
    (∃ w d rest, s.requests = .command w d :: rest ∧ decode w = .illegal ∧
      step s = .next { s with d := d, requests := rest, response := some ⟨.illegalCommand, 0#64⟩ }) ∨
    (∃ w d rest i, s.requests = .command w d :: rest ∧ decode w = .command i ∧
      step s = exec i (accept d rest s)) := by
  unfold step
  split
  · exact .inl ⟨‹_›, rfl⟩
  · exact .inr (.inl ⟨_, ‹_›, rfl⟩)
  · split
    · exact .inr (.inr (.inr ⟨_, _, _, _, ‹_›, ‹_›, rfl⟩))
    · exact .inr (.inr (.inl ⟨_, _, _, ‹_›, ‹_›, rfl⟩))

/-- Every step answers a next state: the block never stops (R170). -/
theorem step_next (s : State) : ∃ t, step s = .next t := by
  obtain ⟨-, e⟩ | ⟨_, -, e⟩ | ⟨_, _, _, -, -, e⟩ | ⟨_, _, _, _, -, -, e⟩ := step_cases s
  · exact ⟨_, e⟩
  · exact ⟨_, e⟩
  · exact ⟨_, e⟩
  · rw [e]
    exact exec_next _ _

/-- A machine's run is its first step and the run from there. -/
theorem run_succ (M : Host.Core) {k : Nat} {s t : M.State} (h : M.step s = .next t) :
    M.run (k + 1) s = M.run k t := by
  simp only [Host.Core.run, h]

end Sys2Proof.Machine
end

