-- ==== Sys2Proof/Tests/Slice0.lean ====
section
/-! SUPPORT. Tests. Every expected value is a row of spec/95_test_vectors.md or is worked by hand from the rule named;
the second half holds the witnesses that the statements' hypotheses can be met. -/

open Sys2Proof Sys2Proof.Machine

namespace Sys2Proof.Tests

/-! ## Helpers -/

/-- Every byte 0x00, at RSIZE = 8. -/
def zero8 : Cells := Cells.zero 8

/-- R = [01,02,03,04,05,06,07,08], all else zero. -/
def digits : Cells := { zero8 with r := [1, 2, 3, 4, 5, 6, 7, 8] }

/-- Cells at RSIZE = 8 under a policy, with data `d` in place and requests presented. -/
def stateOf (c : Cells) (p : OversizePolicy) (d : Data) (q : List Request) : State :=
  { cells := c, cfg := ⟨8, p⟩, d := d, requests := q, response := none }

/-- One command presented under Reject. -/
def present (c : Cells) (w : CmdWord) (d : Data) : State := stateOf c .reject 0 [.command w d]

/-- One command presented under Truncate. -/
def presentT (c : Cells) (w : CmdWord) (d : Data) : State := stateOf c .truncate 0 [.command w d]

/-- One command presented to a block of another RSIZE, under Reject. -/
def presentAt (rsize : Nat) (c : Cells) (w : CmdWord) (d : Data) : State :=
  { cells := c, cfg := ⟨rsize, .reject⟩, d := 0, requests := [.command w d], response := none }

/-- What one step or one meaning leaves to be seen: the cells and the response. -/
def seen (res : Result) : Option (Cells × Option Response) :=
  match res with
  | .next t => some (t.cells, t.response)
  | .fault _ => none
  | .refused _ => none

/-- Cells and a successful response. -/
def okWith (c : Cells) (v : Data) : Option (Cells × Option Response) := some (c, some ⟨.ok, v⟩)

/-- Cells and an error response. -/
def errWith (c : Cells) (e : Status) : Option (Cells × Option Response) := some (c, some ⟨e, 0⟩)

/-! ## WellFormed: each field check refuses an operand its 4 bits cannot hold (R71, R74, R75) -/

theorem test_wellFormed_rdb : (Instr.rdb .pc 16).wellFormed = false ∧ (Instr.rdb .pc 15).wellFormed = true := by decide
theorem test_wellFormed_wrb :
    (Instr.wrb .gen 16).wellFormed = false ∧ (Instr.wrb .gen 15).wellFormed = true := by decide
theorem test_wellFormed_rdi :
    (Instr.rdi .a 16 1).wellFormed = false ∧ (Instr.rdi .a 0 16).wellFormed = false ∧
    (Instr.rdi .a 15 15).wellFormed = true := by decide
theorem test_wellFormed_wri :
    (Instr.wri .x 16 1).wellFormed = false ∧ (Instr.wri .x 0 16).wellFormed = false ∧
    (Instr.wri .x 15 15).wellFormed = true := by decide
theorem test_wellFormed_frd : (Instr.frd 16).wellFormed = false ∧ (Instr.frd 15).wellFormed = true := by decide
theorem test_wellFormed_fwr : (Instr.fwr 16).wellFormed = false ∧ (Instr.fwr 15).wellFormed = true := by decide
theorem test_wellFormed_bvg : (Instr.bvg 16).wellFormed = false ∧ (Instr.bvg 15).wellFormed = true := by decide
theorem test_wellFormed_bvs : (Instr.bvs 16).wellFormed = false ∧ (Instr.bvs 15).wellFormed = true := by decide
/-- R10: RSIZE is 1 to 8. -/
theorem test_config_wf :
    (Config.mk 0 .reject).wf = false ∧ (Config.mk 9 .reject).wf = false ∧ (Config.mk 1 .truncate).wf = true ∧
    (Config.mk 8 .reject).wf = true := by decide

/-! ## Decode: the words of R71 to R73 written out as op, rsel, z, off, sel -/

/-- RDB: op 0000, off read, sel zero. -/
theorem test_decode_rdb :
    decode 0b0000_110_0_0111_0000#16 = .command (.rdb .gen 7) ∧
    decode 0b0000_001_0_0001_0000#16 = .command (.rdb .sp 1) := by
  decide
/-- WRB: op 0001. -/
theorem test_decode_wrb :
    decode 0b0001_110_0_0011_0000#16 = .command (.wrb .gen 3) ∧
    decode 0b0001_100_0_0000_0000#16 = .command (.wrb .y 0) := by
  decide
/-- RDI: op 0010. -/
theorem test_decode_rdi :
    decode 0b0010_110_0_1001_0011#16 = .command (.rdi .gen 9 3) ∧
    decode 0b0010_001_0_0000_0100#16 = .command (.rdi .sp 0 4) := by
  decide
/-- WRI: op 0011. -/
theorem test_decode_wri :
    decode 0b0011_110_0_0100_0100#16 = .command (.wri .gen 4 4) ∧
    decode 0b0011_100_0_0000_0101#16 = .command (.wri .y 0 5) := by
  decide
/-- RDV: op 0100; RDS: op 0101. -/
theorem test_decode_rdv_rds :
    decode 0b0100_110_0_0000_0000#16 = .command (.rdv .gen) ∧ decode 0b0100_101_0_0000_0000#16 = .command (.rdv .p) ∧
    decode 0b0101_011_0_0000_0000#16 = .command (.rds .x) ∧ decode 0b0101_010_0_0000_0000#16 = .command (.rds .a) := by
  decide
/-- FRD: op 0110 on P; FWR: op 0111 on P. -/
theorem test_decode_frd_fwr :
    decode 0b0110_101_0_0000_1001#16 = .command (.frd 9) ∧ decode 0b0111_101_0_0000_0011#16 = .command (.fwr 3) := by
  decide
/-- BVG: op 1000; BVS: op 1001. -/
theorem test_decode_bvg_bvs :
    decode 0b1000_000_0_0000_0110#16 = .command (.bvg 6) ∧ decode 0b1001_000_0_0000_1111#16 = .command (.bvs 15) := by
  decide
/-- The fixed words of R85, through the ten generic rows (R88). -/
theorem test_decode_getters :
    [0x6A07#16, 0x6A06#16, 0x6A05#16, 0x6A04#16, 0x6A03#16, 0x6A02#16, 0x6A01#16, 0x6A00#16].map decode =
      [7, 6, 5, 4, 3, 2, 1, 0].map fun i => .command (.frd i) := by decide
theorem test_decode_setters :
    [0x7A07#16, 0x7A06#16, 0x7A05#16, 0x7A04#16, 0x7A03#16, 0x7A02#16, 0x7A01#16, 0x7A00#16].map decode =
      [7, 6, 5, 4, 3, 2, 1, 0].map fun i => .command (.fwr i) := by decide
/-- The table of R85: the encoder's words. -/
theorem test_encode_named :
    [Instr.getC, .getZ, .getI, .getD, .getU3, .getU2, .getV, .getN].map encode =
      [0x6A07#16, 0x6A06#16, 0x6A05#16, 0x6A04#16, 0x6A03#16, 0x6A02#16, 0x6A01#16, 0x6A00#16] ∧
    [Instr.setC, .setZ, .setI, .setD, .setU3, .setU2, .setV, .setN].map encode =
      [0x7A07#16, 0x7A06#16, 0x7A05#16, 0x7A04#16, 0x7A03#16, 0x7A02#16, 0x7A01#16, 0x7A00#16] := by decide
/-- Part 2.4: the illegal words. -/
theorem test_decode_illegal :
    [0xA000#16, 0xF123#16, 0x0E00#16, 0x0401#16, 0x0500#16, 0x4A10#16, 0x5002#16, 0x6400#16, 0x7000#16, 0x6A10#16,
      0x8A00#16, 0x9020#16, 0x2E01#16, 0x3E01#16].map decode = List.replicate 14 .illegal := by decide
/-- Part 2.4: an illegal word changes no cell; its d is ignored. -/
theorem test_step_illegal : seen (step (present digits 0xF123 0x55)) = errWith digits .illegalCommand := by decide
/-- The table's numbering of a 16-bit row is the word's own. -/
theorem test_decodeTableWord : decodeTableWord 16 0x2C22 = some (.rdi .gen 2 2) ∧ decodeTableWord 16 0x0500 = none := by
  decide

/-! ## One step per command (95_test_vectors.md Part 2) -/

theorem test_rdb :
    seen (step (present { zero8 with pc := 0x1234 } 0x0010 0)) = okWith { zero8 with pc := 0x1234 } 0x34 ∧
    seen (step (present { zero8 with pc := 0x1234 } 0x0000 0)) = okWith { zero8 with pc := 0x1234 } 0x12 := by decide
theorem test_rdb_bounds :
    seen (step (present digits 0x0C80 0)) = errWith digits .indexOutOfBounds ∧
    seen (step (present digits 0x0C70 0)) = okWith digits 8 := by decide

theorem test_wrb :
    seen (step (present digits 0x1C30 0xEE)) = okWith { digits with r := [1, 2, 3, 0xEE, 5, 6, 7, 8] } 0 ∧
    seen (step (present { zero8 with pc := 0x1234 } 0x1010 0xCD)) = okWith { zero8 with pc := 0x12CD } 0 := by decide
/-- The index is checked before the value; Truncate keeps the low byte. -/
theorem test_wrb_oversize :
    seen (step (present { zero8 with a := 0x55 } 0x1400 0x100)) = errWith { zero8 with a := 0x55 } .valueOutOfRange ∧
    seen (step (presentT { zero8 with a := 0x55 } 0x1400 0x100)) = okWith zero8 0 ∧
    seen (step (present zero8 0x1410 0x100)) = errWith zero8 .indexOutOfBounds := by decide

theorem test_rdi :
    seen (step (present digits 0x2C22 0)) = okWith digits 0x304 ∧
    seen (step (present digits 0x2C08 0)) = okWith digits 0x102030405060708 ∧
    seen (step (present { zero8 with pc := 0x1234 } 0x2003 0)) = okWith { zero8 with pc := 0x1234 } 0x1234 := by decide
/-- The width is checked before the bounds. -/
theorem test_rdi_errors :
    seen (step (present digits 0x2C93 0)) = errWith digits .unsupportedWidth ∧
    seen (step (present digits 0x2C54 0)) = errWith digits .indexOutOfBounds ∧
    seen (step (present zero8 0x2210 0)) = errWith zero8 .indexOutOfBounds := by decide

theorem test_wri :
    seen (step (present digits 0x3C22 0xBEEF)) = okWith { digits with r := [1, 2, 0xBE, 0xEF, 5, 6, 7, 8] } 0 ∧
    seen (step (presentT digits 0x3C02 0x12345)) = okWith { digits with r := [0x23, 0x45, 3, 4, 5, 6, 7, 8] } 0 ∧
    seen (step (present zero8 0x3001 0xC000)) = okWith { zero8 with pc := 0xC000 } 0 ∧
    seen (step (present zero8 0x3208 0xFF)) = okWith { zero8 with sp := 0xFF } 0 := by decide
theorem test_wri_errors :
    seen (step (present digits 0x3C03 5)) = errWith digits .unsupportedWidth ∧
    seen (step (present digits 0x3C64 0xDEADBEEF)) = errWith digits .indexOutOfBounds ∧
    seen (step (present digits 0x3C02 0x10000)) = errWith digits .valueOutOfRange ∧
    seen (step (present zero8 0x3402 0x99)) = errWith zero8 .indexOutOfBounds := by decide

theorem test_rdv :
    seen (step (present { zero8 with pc := 0xC000 } 0x4000 0)) = okWith { zero8 with pc := 0xC000 } 0xC000 ∧
    seen (step (presentAt 3 { Cells.zero 3 with r := [0xAB, 0xCD, 0xEF] } 0x4C00 0)) =
      okWith { Cells.zero 3 with r := [0xAB, 0xCD, 0xEF] } 0xABCDEF := by decide
theorem test_rds :
    seen (step (present zero8 0x5000 0)) = okWith zero8 2 ∧ seen (step (present zero8 0x5200 0)) = okWith zero8 1 ∧
    seen (step (presentAt 3 (Cells.zero 3) 0x5C00 0)) = okWith (Cells.zero 3) 3 := by decide

theorem test_frd :
    seen (step (present { zero8 with p := 0x81 } 0x6A00 0)) = okWith { zero8 with p := 0x81 } 1 ∧
    seen (step (present { zero8 with p := 0x81 } 0x6A06 0)) = okWith { zero8 with p := 0x81 } 0 ∧
    seen (step (present { zero8 with p := 0x81 } 0x6A09 0)) = errWith { zero8 with p := 0x81 } .indexOutOfBounds := by
  decide
theorem test_fwr :
    seen (step (present zero8 0x7A03 1)) = okWith { zero8 with p := 0x08 } 0 ∧
    seen (step (present { zero8 with p := 0xFF } 0x7A02 0)) = okWith { zero8 with p := 0xFB } 0 := by decide
theorem test_fwr_oversize :
    seen (step (present zero8 0x7A00 2)) = errWith zero8 .valueOutOfRange ∧
    seen (step (presentT zero8 0x7A00 3)) = okWith { zero8 with p := 1 } 0 ∧
    seen (step (presentT zero8 0x7A00 2)) = okWith zero8 0 := by decide

theorem test_bvg :
    seen (step (present zero8 0x8007 0x81)) = okWith zero8 1 ∧
    seen (step (present zero8 0x8006 0x81)) = okWith zero8 0 ∧
    seen (step (present zero8 0x8008 0x81)) = errWith zero8 .indexOutOfBounds ∧
    seen (step (present zero8 0x8003 0x1FF)) = errWith zero8 .valueOutOfRange ∧
    seen (step (presentT zero8 0x8003 0x1FF)) = okWith zero8 1 := by decide
theorem test_bvs :
    seen (step (present zero8 0x9003 0x100)) = okWith zero8 0x08 ∧
    seen (step (present zero8 0x9000 0xFF)) = okWith zero8 0xFE ∧
    seen (step (present zero8 0x900F 0x100)) = errWith zero8 .indexOutOfBounds ∧
    seen (step (present zero8 0x9000 0x200)) = errWith zero8 .valueOutOfRange := by decide

/-! The named accessors, each meaning on its own (Part 2.3): a getter on P = one flag and on P = all others, a setter
setting from 0x00 and clearing from 0xFF. -/

/-- What a getter answers on a status byte. -/
def gets (i : Instr) (p : Byte) : Option (Cells × Option Response) :=
  seen (exec i (stateOf { zero8 with p := p } .reject 0 []))

/-- What a setter leaves with a flag value on a status byte. -/
def sets (i : Instr) (p : Byte) (d : Data) : Option (Cells × Option Response) :=
  seen (exec i (stateOf { zero8 with p := p } .reject d []))

/-- P alone, and read data. -/
def statusIs (p : Byte) (v : Data) : Option (Cells × Option Response) := okWith { zero8 with p := p } v

theorem test_getC : gets .getC 0x80 = statusIs 0x80 1 ∧ gets .getC 0x7F = statusIs 0x7F 0 := by decide
theorem test_setC : sets .setC 0x00 1 = statusIs 0x80 0 ∧ sets .setC 0xFF 0 = statusIs 0x7F 0 := by decide
theorem test_getZ : gets .getZ 0x40 = statusIs 0x40 1 ∧ gets .getZ 0xBF = statusIs 0xBF 0 := by decide
theorem test_setZ : sets .setZ 0x00 1 = statusIs 0x40 0 ∧ sets .setZ 0xFF 0 = statusIs 0xBF 0 := by decide
theorem test_getI : gets .getI 0x20 = statusIs 0x20 1 ∧ gets .getI 0xDF = statusIs 0xDF 0 := by decide
theorem test_setI : sets .setI 0x00 1 = statusIs 0x20 0 ∧ sets .setI 0xFF 0 = statusIs 0xDF 0 := by decide
theorem test_getD : gets .getD 0x10 = statusIs 0x10 1 ∧ gets .getD 0xEF = statusIs 0xEF 0 := by decide
theorem test_setD : sets .setD 0x00 1 = statusIs 0x10 0 ∧ sets .setD 0xFF 0 = statusIs 0xEF 0 := by decide
theorem test_getU3 : gets .getU3 0x08 = statusIs 0x08 1 ∧ gets .getU3 0xF7 = statusIs 0xF7 0 := by decide
theorem test_setU3 : sets .setU3 0x00 1 = statusIs 0x08 0 ∧ sets .setU3 0xFF 0 = statusIs 0xF7 0 := by decide
theorem test_getU2 : gets .getU2 0x04 = statusIs 0x04 1 ∧ gets .getU2 0xFB = statusIs 0xFB 0 := by decide
theorem test_setU2 : sets .setU2 0x00 1 = statusIs 0x04 0 ∧ sets .setU2 0xFF 0 = statusIs 0xFB 0 := by decide
theorem test_getV : gets .getV 0x02 = statusIs 0x02 1 ∧ gets .getV 0xFD = statusIs 0xFD 0 := by decide
theorem test_setV : sets .setV 0x00 1 = statusIs 0x02 0 ∧ sets .setV 0xFF 0 = statusIs 0xFD 0 := by decide
theorem test_getN : gets .getN 0x01 = statusIs 0x01 1 ∧ gets .getN 0xFE = statusIs 0xFE 0 := by decide
theorem test_setN : sets .setN 0x00 1 = statusIs 0x01 0 ∧ sets .setN 0xFF 0 = statusIs 0xFE 0 := by decide

/-! Reset, the idle step and the assembler -/

/-- Part 2.5: any state, then reset, then every cell is zero; reset gives no response. -/
theorem test_reset_input :
    seen (step (stateOf { digits with p := 0xFF, pc := 0x1234 } .reject 7 [.reset])) = some (zero8, none) := by decide
/-- R183 and Part 2.5: at reset every flag is clear and RSIZE bytes of R are zero. -/
theorem test_reset : State.reset.cells = zero8 ∧ State.reset.requests = [] ∧ State.reset.response = none := by decide
/-- Nothing presented: nothing changes. -/
theorem test_idle : seen (step (stateOf digits .reject 7 [])) = some (digits, none) := by decide
/-- R84, R86 and Part 3: the lines and words of the programs. -/
theorem test_assemble :
    assemble (.rdi .pc 0 none) = some (.command 0x2000 0) ∧
    assemble (.wri .sp 0 none 0xFD) = some (.command 0x3200 0xFD) ∧
    assemble (.wri .gen 2 (some 2) 0xBEEF) = some (.command 0x3C22 0xBEEF) ∧
    assemble (.bvs 0x00 3 true) = some (.command 0x9003 0x100) ∧
    assemble (.bvs 0xFF 0 false) = some (.command 0x9000 0xFF) ∧ assemble (.rdi .a 0 none) = none ∧
    assemble (.fwr 16 1) = none ∧ assemble (.getter "GET_Q") = none := by decide
/-- R147, E8: single-flag bytes and 0xC3 through the flag decoder. -/
theorem test_flagDecoder :
    flagsOfByte 0x80 = ⟨true, false, false, false, false, false, false, false⟩ ∧
    flagsOfByte 0x01 = ⟨false, false, false, false, false, false, false, true⟩ ∧
    flagsOfByte 0xC3 = ⟨true, true, false, false, false, false, true, true⟩ := by decide

/-! ## Witnesses: for each statement with hypotheses, states and operands that meet them, each clause at a boundary

In them `s0` is a state that meets the size invariant, with RSIZE = 8 under Reject, and `s1` the same under Truncate. -/

/-- A state under Reject with data `d`. -/
def s0 (d : Data) : State := stateOf digits .reject d []
/-- A state under Truncate with data `d`. -/
def s1 (d : Data) : State := stateOf digits .truncate d []
/-- A state with a command presented. -/
def sq (w : CmdWord) (d : Data) : State := present digits w d

theorem witness_ResetInputZeroesEveryCell : (stateOf digits .reject 0 [.reset, .reset]).requests = .reset :: [.reset] := rfl

theorem witness_ResetMeetsSizeInvariant :
    (Config.mk 1 .truncate).wf = true ∧ (Config.mk 8 .reject).wf = true := by decide

/-- A command that writes, the reset input, an illegal word and no request, each from a state with the invariant. -/
theorem witness_StepKeepsEveryCellAtItsSize :
    (sq 0x3C08 5).wf = true ∧ (∃ t, step (sq 0x3C08 5) = .next t) ∧
    (stateOf digits .reject 0 [.reset]).wf = true ∧ (∃ t, step (stateOf digits .reject 0 [.reset]) = .next t) ∧
    (sq 0xF000 5).wf = true ∧ (∃ t, step (sq 0xF000 5) = .next t) ∧
    (s0 0).wf = true ∧ ∃ t, step (s0 0) = .next t :=
  ⟨rfl, ⟨_, rfl⟩, rfl, ⟨_, rfl⟩, rfl, ⟨_, rfl⟩, rfl, ⟨_, rfl⟩⟩

theorem witness_RunNeverStopsAndKeepsSizes : (sq 0x1400 0x7F).wf = true ∧ State.reset.wf = true := by decide

theorem witness_StepRunsTheDecodedCommand :
    (sq 0x2C22 5).requests = .command 0x2C22 5 :: [] ∧ decode 0x2C22 = .command (.rdi .gen 2 2) ∧
    (s0 0).requests = [] := by decide

theorem witness_PresentedWordRunsNext : decodeTableWord 16 0x3C08 = some (.wri .gen 0 8) := by decide

/-- An illegal word of each kind, and a legal one, with the fields the statement names. -/
theorem witness_IllegalWordsRaiseIllegalCommand :
    ([0xA000#16, 0x0E00#16, 0x0500#16, 0x6400#16, 0x7000#16, 0x0401#16, 0x1C0F#16, 0x4A10#16, 0x5002#16, 0x6A10#16,
        0x8A00#16, 0x9020#16].map fun w =>
      (w.toNat / 4096, w.toNat / 512 % 8, w.toNat / 256 % 2, w.toNat / 16 % 16, w.toNat % 16)) =
      [(0xA, 0, 0, 0, 0), (0, 7, 0, 0, 0), (0, 2, 1, 0, 0), (6, 2, 0, 0, 0), (7, 0, 0, 0, 0), (0, 2, 0, 0, 1),
        (1, 6, 0, 0, 15), (4, 5, 0, 1, 0), (5, 0, 0, 0, 2), (6, 5, 0, 1, 0), (8, 5, 0, 0, 0), (9, 0, 0, 2, 0)] ∧
    (sq 0xA000 5).requests = .command 0xA000 5 :: [] ∧
    (0x2CF3#16 : CmdWord).toNat / 4096 = 2 ∧ (0x2CF3#16 : CmdWord).toNat / 512 % 8 = 6 ∧
    (0x2CF3#16 : CmdWord).toNat / 256 % 2 = 0 ∧ (sq 0x2CF3 5).requests = .command 0x2CF3 5 :: [] := by decide

theorem witness_LegalWordCounts : ∃ legalWithOp : Nat → Nat, ∀ op, legalWithOp op =
    (List.range 4096).countP fun n => (decode (BitVec.ofNat 16 (4096 * op + n))).instr?.isSome := ⟨_, fun _ => rfl⟩

theorem witness_DecodeOfEncode :
    (Instr.wri .gen 15 15).wellFormed = true ∧ (Instr.rdb .pc 0).wellFormed = true ∧ Instr.setN.wellFormed = true := by
  decide

theorem witness_EncodeOfDecode : decode 0x3CFF = .command (.wri .gen 15 15) ∧ decode 0x7A00 = .command (.fwr 0) := by
  decide

/-- Operands at both ends of their fields and the requests they are presented in, the first operand past the end, a cell
without an override, and names of no accessor. -/
theorem witness_AssembledLineRuns :
    (15 < 16 ∧ 0 < 16 ∧ 16 ≤ 16) ∧ (Reg.gen ≠ .pc ∧ Reg.gen ≠ .sp) ∧
    (sq 0x9007 0x1FF).requests =
      .command (encode (.bvs 7)) ((if true then 256#64 else 0#64) + (0xFF#8).setWidth 64) :: [] ∧
    (sq 0x3010 0xC000).requests = .command (encode (.wri .pc 1 0)) 0xC000 :: [] ∧
    (sq 0x7A07 2).requests = .command (encode .setC) 2 :: [] ∧
    "SET_C" ∉ ["GET_C", "GET_carryFlag", "GET_Z", "GET_zeroFlag", "GET_I", "GET_interruptFlag", "GET_D",
        "GET_decimalFlag", "GET_U3", "GET_unusedHighFlag", "GET_U2", "GET_unusedLowFlag", "GET_V", "GET_overflowFlag",
        "GET_N", "GET_negativeFlag"] ∧
    "SET_B" ∉ ["SET_C", "SET_carryFlag", "SET_Z", "SET_zeroFlag", "SET_I", "SET_interruptFlag", "SET_D",
        "SET_decimalFlag", "SET_U3", "SET_unusedHighFlag", "SET_U2", "SET_unusedLowFlag", "SET_V", "SET_overflowFlag",
        "SET_N", "SET_negativeFlag"] := by decide

/-- The last byte of PC and of R, and the first offset past each. -/
theorem witness_RdbReadsOneByte :
    (s0 0).wf = true ∧ 1 < cellSize (s0 0).cfg .pc ∧ cellSize (s0 0).cfg .pc ≤ 2 ∧ 7 < cellSize (s0 0).cfg .gen ∧
    cellSize (s0 0).cfg .gen ≤ 8 ∧ 15 < 16 := by decide

theorem witness_WrbWritesOneByte :
    (s0 255).wf = true ∧ 7 < cellSize (s0 255).cfg .gen ∧ (s0 255).d.toNat < 256 ∧ (s1 256).wf = true ∧
    (s1 256).cfg.policy = .truncate ∧ cellSize (s0 255).cfg .gen ≤ 8 ∧ (s0 256).wf = true ∧
    0 < cellSize (s0 256).cfg .sp ∧ 256 ≤ (s0 256).d.toNat ∧ (s0 256).cfg.policy = .reject := by decide

theorem witness_RdvReadsWholeBuffer :
    (s0 0).wf = true ∧ 7 < cellSize (s0 0).cfg .gen ∧ 0 < cellSize (s0 0).cfg .a := by decide

/-- Width 8 at 0 in R; width 3; width 2 at 7; and PC at 0 and 1 with sel = 3. -/
theorem witness_RdiReadsBigEndian :
    (s0 0).wf = true ∧ (8 = if Reg.gen = .pc then 2 else if Reg.gen = .sp then 1 else 8) ∧
    0 + 8 ≤ cellSize (s0 0).cfg .gen ∧ (3 = if Reg.gen = .pc then 2 else if Reg.gen = .sp then 1 else 3) ∧
    ¬(3 = 1 ∨ 3 = 2 ∨ 3 = 4 ∨ 3 = 8) ∧ cellSize (s0 0).cfg .gen < 7 + 2 ∧
    (2 = if Reg.pc = .pc then 2 else if Reg.pc = .sp then 1 else 3) ∧ 0 + 2 ≤ cellSize (s0 0).cfg .pc ∧
    cellSize (s0 0).cfg .pc < 1 + 2 := by decide

theorem witness_WriWritesBigEndian :
    (s0 65535).wf = true ∧ (2 = if Reg.gen = .pc then 2 else if Reg.gen = .sp then 1 else 2) ∧
    6 + 2 ≤ cellSize (s0 65535).cfg .gen ∧ (s0 65535).d.toNat < 256 ^ 2 ∧ (s1 65536).cfg.policy = .truncate ∧
    (s1 65536).wf = true ∧ ¬(0 = 1 ∨ 0 = 2 ∨ 0 = 4 ∨ 0 = 8) ∧ cellSize (s0 65535).cfg .gen < 7 + 2 ∧
    (s0 65536).wf = true ∧ 256 ^ 2 ≤ (s0 65536).d.toNat ∧ (s0 65536).cfg.policy = .reject := by decide

theorem witness_WriThenRdiReturnsTheValue :
    (s0 (-1)).wf = true ∧ (8 = if Reg.gen = .pc then 2 else if Reg.gen = .sp then 1 else 8) ∧
    0 + 8 ≤ cellSize (s0 (-1)).cfg .gen ∧ (s0 (-1)).d.toNat < 256 ^ 8 ∧
    (1 = if Reg.sp = .pc then 2 else if Reg.sp = .sp then 1 else 15) ∧ 0 + 1 ≤ cellSize (s0 255).cfg .sp ∧
    (s0 255).d.toNat < 256 ^ 1 := by decide

theorem witness_MixedWidthViewsAgree :
    (s0 0xDEADBEEF).wf = true ∧ 4 + 4 ≤ (s0 0xDEADBEEF).cfg.rsize ∧ 2 + 2 ≤ 4 ∧
    (s0 0xDEADBEEF).d.toNat < 256 ^ 4 := by decide

theorem witness_PcAndSpOverrideTheWidth :
    (s0 65535).d.toNat < 65536 ∧ (s0 255).d.toNat < 256 ∧ (s1 65536).cfg.policy = .truncate ∧
    65536 ≤ (s0 65536).d.toNat ∧ 256 ≤ (s0 256).d.toNat ∧ (s0 256).cfg.policy = .reject := by decide

theorem witness_WidthOneAgreesWithByteAccess : Reg.gen ≠ .pc ∧ Reg.gen ≠ .sp ∧ Reg.a ≠ .pc ∧ Reg.a ≠ .sp := by decide

theorem witness_BitViewGetAndSet : 7 < 8 ∧ 0 < 8 := by decide

theorem witness_BvgReadsABitOfTheData :
    7 ≤ 7 ∧ (s0 255).d.toNat < 256 ∧ (s1 256).cfg.policy = .truncate ∧ 7 < 8 ∧ 256 ≤ (s0 256).d.toNat ∧
    (s0 256).cfg.policy = .reject := by decide

theorem witness_BvsForcesABitOfTheData :
    (s0 511).d.toNat < 512 ∧ (s1 512).cfg.policy = .truncate ∧ 7 < 8 ∧ 512 ≤ (s0 512).d.toNat ∧
    (s0 512).cfg.policy = .reject := by decide

theorem witness_BvgOfBvs :
    (s0 0x1FF).d = (if true then 256#64 else 0#64) + (0xFF#8).setWidth 64 ∧
    (s0 0).d = (if false then 256#64 else 0#64) + (0x00#8).setWidth 64 := by decide

theorem witness_FrdReadsOneFlag : 7 ≤ 7 ∧ 7 < 8 ∧ 15 < 16 := by decide

theorem witness_FwrWritesOneFlag :
    (s0 1).d.toNat < 2 ∧ (s1 2).cfg.policy = .truncate ∧ 2 ≤ (s0 2).d.toNat ∧ (s0 2).cfg.policy = .reject ∧ 7 < 8 := by
  decide

theorem witness_NamedSettersWriteTheirFlag :
    (s0 1).d.toNat < 2 ∧ (s1 2).cfg.policy = .truncate ∧ 2 ≤ (s0 2).d.toNat ∧ (s0 2).cfg.policy = .reject := by decide

theorem witness_FlagLayoutHasNoOverlap : StatusFlag.carry ≠ StatusFlag.negative := by decide

theorem witness_FlagReadAfterWrite :
    7 ≤ 7 ∧ (s0 1).d = (if true then 1#64 else 0#64) ∧ (s0 0).d = (if false then 1#64 else 0#64) := by decide

theorem witness_StatusByteWriteSetsAllFlags :
    (s0 0xFF).d = (0xFF#8).setWidth 64 ∧ 7 ≤ 7 ∧ (Instr.wrb .p 0 = .wrb .p 0 ∨ Instr.wrb .p 0 = .wri .p 0 1) ∧
    (Instr.wri .p 0 1 = .wrb .p 0 ∨ Instr.wri .p 0 1 = .wri .p 0 1) := by decide

theorem witness_OversizeCheckFollowsThePolicy :
    (255#64).toNat < 2 ^ 8 ∧ 2 ^ 8 ≤ (256#64).toNat ∧ (1#64).toNat < 2 ^ 1 ∧ (2#64).toNat ≥ 2 ^ 1 ∧
    (BitVec.allOnes 64).toNat < 2 ^ 64 := by decide

/-- A write that fits under Reject, and an error that is not ValueOutOfRange. -/
theorem witness_PolicyDecidesOnlyOversizeData :
    (s0 1).cfg.policy = .reject ∧
    exec (.setC) (s0 1) =
      .next { s0 1 with cells := { digits with p := 0x80 }, response := some ⟨.ok, 0⟩ } ∧
    exec (.rdb .sp 1) (s0 1) = .next { s0 1 with response := some ⟨.indexOutOfBounds, 0⟩ } := ⟨rfl, rfl, rfl⟩

/-- An error, and a successful write. -/
theorem witness_ResponsesFollowTheStatusTable :
    exec (.rdi .gen 0 3) (s0 1) = .next { s0 1 with response := some ⟨.unsupportedWidth, 0⟩ } ∧
    exec .setC (s0 1) = .next { s0 1 with cells := { digits with p := 0x80 }, response := some ⟨.ok, 0⟩ } ∧
    Instr.setC.writes ≠ none := ⟨rfl, rfl, by decide⟩

theorem witness_ErrorsChangeNothing :
    exec .setC (s0 2) = .next { s0 2 with response := some ⟨.valueOutOfRange, 0⟩ } ∧
    step (sq 0xF000 5) = .next { s0 5 with response := some ⟨.illegalCommand, 0⟩ } := ⟨rfl, rfl⟩

/-- Raised, and not raised. -/
theorem witness_UnsupportedWidthExactlyWhen :
    exec (.wri .gen 0 3) (s0 5) = .next { s0 5 with response := some ⟨.unsupportedWidth, 0⟩ } ∧
    exec (.rdi .pc 0 3) (s0 5) = .next { s0 5 with response := some ⟨.ok, 0⟩ } := ⟨rfl, rfl⟩

theorem witness_IndexOutOfBoundsExactlyWhen :
    exec (.rdi .gen 7 2) (s0 5) = .next { s0 5 with response := some ⟨.indexOutOfBounds, 0⟩ } ∧
    exec (.rdi .gen 6 2) (s0 5) = .next { s0 5 with response := some ⟨.ok, 0x708⟩ } := ⟨rfl, rfl⟩

theorem witness_ValueOutOfRangeOnlyUnderReject :
    exec (.wrb .a 0) (s0 256) = .next { s0 256 with response := some ⟨.valueOutOfRange, 0⟩ } ∧
    (Instr.wrb .a 0).dataBits = some 8 ∧ 2 ^ 8 ≤ (s0 256).d.toNat ∧ (s0 256).cfg.policy = .reject :=
  ⟨rfl, rfl, by decide, rfl⟩

theorem witness_ReadsHaveNoSideEffects :
    (Instr.rdv .gen).writes = none ∧
    exec (.rdv .gen) (s0 0) = .next { s0 0 with response := some ⟨.ok, 0x102030405060708⟩ } := ⟨rfl, rfl⟩

theorem witness_WritesAreIdempotent :
    (Instr.wri .gen 6 2).writes = some .gen ∧
    exec (.wri .gen 6 2) (s0 0xABCD) =
      .next { s0 0xABCD with
        cells := { digits with r := [1, 2, 3, 4, 5, 6, 0xAB, 0xCD] }, response := some ⟨.ok, 0⟩ } := ⟨rfl, rfl⟩

theorem witness_WritesTouchOnlyTheirCell :
    exec (.wri .pc 0 0) (s0 0xABCD) =
      .next { s0 0xABCD with cells := { digits with pc := 0xABCD }, response := some ⟨.ok, 0⟩ } ∧
    (Instr.wri .pc 0 0).writes ≠ some .sp := ⟨rfl, by decide⟩

/-- By WRI, and by reset. -/
theorem witness_PcChangesOnlyByWriteOrReset :
    step (sq 0x3000 0xC000) =
      .next { s0 0xC000 with cells := { digits with pc := 0xC000 }, response := some ⟨.ok, 0⟩ } ∧
    (0xC000 : BitVec 16) ≠ (sq 0x3000 0xC000).cells.pc := ⟨rfl, by decide⟩

theorem witness_FlagChangesOnlyByFlagWriteOrStatusWrite :
    step (sq 0x7A07 1) = .next { s0 1 with cells := { digits with p := 0x80 }, response := some ⟨.ok, 0⟩ } ∧
    (0x80#8).getLsbD 7 ≠ (sq 0x7A07 1).cells.p.getLsbD 7 := ⟨rfl, by decide⟩

theorem witness_CommandsWithoutDataIgnoreIt :
    (Instr.frd 7).dataBits = none ∧ exec (.frd 7) (s0 5) = .next { s0 5 with response := some ⟨.ok, 0⟩ } := ⟨rfl, rfl⟩

theorem witness_BitViewCommandsIgnoreTheCells :
    exec (.bvg 7) (s0 0x81) = .next { s0 0x81 with response := some ⟨.ok, 1⟩ } ∧
    exec (.bvs 3) (s0 0x100) = .next { s0 0x100 with response := some ⟨.ok, 8⟩ } := ⟨rfl, rfl⟩

/-- Two states that differ in the data and the response that came before. -/
theorem witness_NothingButTheCellsIsRemembered :
    (sq 0x2C22 5).cells = { sq 0x2C22 5 with d := 9, response := some ⟨.illegalCommand, 0⟩ : State }.cells ∧
    (sq 0x2C22 5).cfg = { sq 0x2C22 5 with d := 9, response := some ⟨.illegalCommand, 0⟩ : State }.cfg ∧
    (sq 0x2C22 5).requests = { sq 0x2C22 5 with d := 9, response := some ⟨.illegalCommand, 0⟩ : State }.requests ∧
    (sq 0x2C22 5).d ≠ { sq 0x2C22 5 with d := 9, response := some ⟨.illegalCommand, 0⟩ : State }.d := by decide

end Sys2Proof.Tests
end

section
/-! SUPPORT. Proofs about the state of spec/10_state.md: the cells' sizes at reset and along every step, the frame of
every instruction, what can change PC and a flag of P, PC's byte order, and the flag layout. -/

namespace Sys2Proof.Machine

/-! ## The step, one equation or consequence per use -/

/-- The reset input is taken (R180). -/
theorem step_of_reset {s : State} {rest : List Request} (h : s.requests = .reset :: rest) :
    step s = takeReset rest s := by
  simp only [step, h]

/-- A step changes a cell only by the reset input or by running the command its word decodes to. -/
theorem step_cells_cases {s t : State} (h : step s = .next t) :
    t.cells = s.cells ∨ (∃ rest, s.requests = .reset :: rest) ∨
    ∃ w d rest i, s.requests = .command w d :: rest ∧ decode w = .command i ∧ exec i (accept d rest s) = .next t := by
  obtain ⟨-, e⟩ | ⟨rest, hq, -⟩ | ⟨_, _, _, -, -, e⟩ | ⟨w, d, rest, i, hq, hd, e⟩ := step_cases s
  · cases e.symm.trans h
    exact .inl rfl
  · exact .inr (.inl ⟨rest, hq⟩)
  · cases e.symm.trans h
    exact .inl rfl
  · exact .inr (.inr ⟨w, d, rest, i, hq, hd, e ▸ h⟩)

/-! ## Reset and the size invariant -/

/-- After reset every cell is all zero bytes, at its size (R24, R181). -/
theorem buf_zero (c : Config) (r : Reg) : buf (Cells.zero c.rsize) r = List.replicate (cellSize c r) 0x00#8 := by
  cases r with
  | pc => simp [buf, cellSize, List.replicate]
  | sp | a | x | y | p | gen => rfl

/-- The all-zero cells meet the size invariant at every legal RSIZE, whatever is presented (R10, R21). -/
theorem wf_zero {s : State} (h : s.cfg.wf = true) (hc : s.cells = Cells.zero s.cfg.rsize) : s.wf = true := by
  simp [State.wf, h, hc]

/-- No step changes a parameter (R10, R11). -/
theorem step_cfg {s t : State} (h : step s = .next t) : t.cfg = s.cfg := by
  obtain ⟨-, e⟩ | ⟨_, -, e⟩ | ⟨_, _, _, -, -, e⟩ | ⟨_, d, rest, _, -, -, e⟩ := step_cases s
  · cases e.symm.trans h
    rfl
  · cases e.symm.trans h
    rfl
  · cases e.symm.trans h
    rfl
  · exact (exec_frame (e.symm.trans h)).1

/-- Every step keeps the size invariant (R21). -/
theorem step_wf {s t : State} (h : step s = .next t) (hw : s.wf = true) : t.wf = true := by
  obtain ⟨-, e⟩ | ⟨_, -, e⟩ | ⟨_, _, _, -, -, e⟩ | ⟨_, d, rest, _, -, -, e⟩ := step_cases s
  · cases e.symm.trans h
    exact hw
  · cases e.symm.trans h
    exact wf_zero (Bool.and_eq_true_iff.1 hw).1 rfl
  · cases e.symm.trans h
    exact hw
  · exact exec_wf (e.symm.trans h) (s := accept d rest s) hw

/-- Settles O4: the step keeps the invariant and the parameters, and the invariant fixes every size. -/
theorem stepKeepsEveryCellAtItsSize : Obligations.StepKeepsEveryCellAtItsSize := by
  unfold Obligations.StepKeepsEveryCellAtItsSize
  intro s t hw h
  have hw' := step_wf h hw
  have hc := step_cfg h
  exact ⟨hw', hc, fun r => ⟨buf_length hw r, by rw [buf_length hw' r, buf_length hw r, hc]⟩⟩

/-- Settles O2: the reset input is taken, and the zero cells have their sizes. -/
theorem resetInputZeroesEveryCell : Obligations.ResetInputZeroesEveryCell := by
  unfold Obligations.ResetInputZeroesEveryCell
  intro s rest h
  exact ⟨_, step_of_reset h, buf_zero s.cfg, rfl, rfl, rfl⟩

/-- Settles O3: the zero cells meet the invariant, and the reference RSIZE is legal. -/
theorem resetMeetsSizeInvariant : Obligations.ResetMeetsSizeInvariant := by
  unfold Obligations.ResetMeetsSizeInvariant
  have hinit (c : Config) (h : c.wf = true) : (State.initial c).wf = true := wf_zero h rfl
  exact ⟨hinit Config.reference rfl, hinit⟩

/-! ## The frame of an instruction -/

/-- An instruction leaves every cell but the one it writes (R22). -/
theorem exec_buf_other {i : Instr} {s t : State} {r : Reg} (h : exec i s = .next t) (hr : i.writes ≠ some r) :
    buf t.cells r = buf s.cells r := by
  obtain ⟨_, e, -⟩ | ⟨r', bs, hw, -, e⟩ := exec_effect i s
  · cases e.symm.trans h
    rfl
  · cases e.symm.trans h
    have hne : r ≠ r' := fun he => hr (he ▸ hw)
    exact buf_setBuf_other s.cells hne bs

/-- Settles O49: only the cells and the response differ, and of the cells only the one written. -/
theorem writesTouchOnlyTheirCell : Obligations.WritesTouchOnlyTheirCell := by
  unfold Obligations.WritesTouchOnlyTheirCell
  intro i s t h
  refine ⟨?_, fun r hr => exec_buf_other h hr⟩
  obtain ⟨hcfg, hd, hq, -⟩ := exec_frame h
  rw [← hcfg, ← hd, ← hq]

/-- The instructions that write a cell: WRB and WRI on it, and for P also FWR, by itself or by a setter's name (R59). -/
theorem writes_cases {i : Instr} {r : Reg} (h : i.writes = some r) :
    (∃ off, i = .wrb r off) ∨ (∃ off sel, i = .wri r off sel) ∨ (r = .p ∧ ∃ n, i.core = .fwr n) := by
  cases i with
  | wrb r' off =>
    cases h
    exact .inl ⟨off, rfl⟩
  | wri r' off sel =>
    cases h
    exact .inr (.inl ⟨off, sel, rfl⟩)
  | fwr | setC | setZ | setI | setD | setU3 | setU2 | setV | setN =>
    cases h
    exact .inr (.inr ⟨rfl, _, rfl⟩)
  | rdb | rdi | rdv | rds | frd | bvg | bvs | getC | getZ | getI | getD | getU3 | getU2 | getV | getN => cases h

/-! ## PC -/

/-- PC is its two bytes, byte 0 the high byte (R28). -/
theorem pc_eq_append (c : Cells) : c.pc = c.pc.extractLsb' 8 8 ++ c.pc.extractLsb' 0 8 :=
  (BitVec.extractLsb'_append_extractLsb' (w := 8) (len := 8)).symm

/-- PC is determined by its bytes. -/
theorem pc_eq_of_buf_eq {c c' : Cells} (h : buf c .pc = buf c' .pc) : c.pc = c'.pc := by
  simp only [buf, List.cons.injEq, and_true] at h
  obtain ⟨hhi, hlo⟩ := h
  rw [pc_eq_append c, pc_eq_append c', hhi, hlo]

/-- RDB inside the cell answers its byte (R91). -/
theorem exec_rdb_of_lt {r : Reg} {off : Nat} {s : State} (h : off < cellSize s.cfg r) :
    exec (.rdb r off) s = respond ((byteRead s.cells r off).setWidth 64) s := by
  obtain ⟨hle, -⟩ | ⟨-, e⟩ := withByte_cases r off s (respond ((byteRead s.cells r off).setWidth 64) s)
  · exact absurd h (Nat.not_lt.2 hle)
  · exact e

/-- Settles O21: the two bytes are `PC[15:8]` and `PC[7:0]`, and both offsets are inside PC. -/
theorem pcValueIsBigEndian : Obligations.PcValueIsBigEndian := by
  unfold Obligations.PcValueIsBigEndian
  intro s
  have hsize : cellSize s.cfg .pc = 2 := rfl
  exact ⟨_, _, pc_eq_append s.cells, rfl, rfl, exec_rdb_of_lt (by omega), exec_rdb_of_lt (by omega)⟩

/-- Settles O50: a step that changes PC resets, or runs an instruction that writes PC, which is WRB or WRI. -/
theorem pcChangesOnlyByWriteOrReset : Obligations.PcChangesOnlyByWriteOrReset := by
  unfold Obligations.PcChangesOnlyByWriteOrReset
  intro s t h hne
  obtain hc | hreset | ⟨w, d, rest, i, hq, hd, he⟩ := step_cells_cases h
  · exact absurd (congrArg Cells.pc hc) hne
  · exact .inl hreset
  · have hw : i.writes = some .pc := by
      by_contra hw
      exact hne (pc_eq_of_buf_eq (exec_buf_other (s := accept d rest s) he hw))
    refine .inr ⟨w, d, rest, hq, ?_⟩
    obtain ⟨off, rfl⟩ | ⟨off, sel, rfl⟩ | ⟨hp, -⟩ := writes_cases hw
    · exact .inl ⟨off, hd⟩
    · exact .inr ⟨off, sel, hd⟩
    · cases hp

/-! ## The flags of P -/

/-- The status register is determined by its byte. -/
theorem p_eq_of_buf_eq {c c' : Cells} (h : buf c .p = buf c' .p) : c.p = c'.p := by
  simpa [buf] using h

/-- The bit-index check either leaves the cells or goes on (R122). -/
theorem withBit_next {i : Nat} {s t : State} {go : Result} (h : withBit i s go = .next t) :
    t.cells = s.cells ∨ go = .next t := by
  obtain ⟨-, e⟩ | ⟨-, e⟩ := withBit_cases i s go
  · cases e.symm.trans h
    exact .inl rfl
  · exact .inr (e.symm.trans h)

/-- The oversize check either leaves the cells or goes on with some value (R102). -/
theorem withFit_next {m : Nat} {s t : State} {go : Data → Result} (h : withFit m s go = .next t) :
    t.cells = s.cells ∨ ∃ v, go v = .next t := by
  obtain ⟨-, e⟩ | ⟨-, e⟩ := withFit_cases m s go
  · exact .inr ⟨_, e.symm.trans h⟩
  · cases e.symm.trans h
    exact .inl rfl

/-- FWR at `n` leaves every bit of P but bit `n` (R127). -/
theorem exec_fwr_getLsbD_other {n j : Nat} {s t : State} (h : exec (.fwr n) s = .next t) (hj : j ≠ n) :
    t.cells.p.getLsbD j = s.cells.p.getLsbD j := by
  obtain hc | h := withBit_next h
  · rw [hc]
  obtain hc | ⟨v, h⟩ := withFit_next h
  · rw [hc]
  cases h
  change (bvSet s.cells.p n (v = 1#64)).getLsbD j = s.cells.p.getLsbD j
  by_cases hj8 : j < 8
  · rw [bvSet_getLsbD _ _ hj8, if_neg hj]
  · rw [BitVec.getLsbD_of_ge _ j (by omega), BitVec.getLsbD_of_ge _ j (by omega)]

/-- A command on a cell decodes to itself for some cell. -/
theorem decodeOnCell_eq_command {rsel : Nat} {ok : Bool} {mk : Reg → Instr} {i : Instr}
    (h : decodeOnCell rsel ok mk = .command i) : ∃ r, mk r = i := by
  unfold decodeOnCell at h
  split at h
  · exact ⟨_, Decoded.command.inj h⟩
  · cases h

/-- A command without a cell of its choice decodes to itself. -/
theorem decodeFixed_eq_command {ok : Bool} {i i' : Instr} (h : decodeFixed ok i = .command i') : i = i' := by
  unfold decodeFixed at h
  split at h
  · exact Decoded.command.inj h
  · cases h

/-- The decoder answers generic commands only, never a named flag accessor (R83, R88). -/
theorem core_of_decode {w : CmdWord} {i : Instr} (h : decode w = .command i) : i.core = i := by
  unfold decode at h
  split at h
  case isFalse => cases h
  unfold decodeFields at h
  split at h
  case h_1 | h_2 | h_3 | h_4 | h_5 | h_6 =>
    obtain ⟨r, rfl⟩ := decodeOnCell_eq_command h
    rfl
  case h_7 | h_8 | h_9 | h_10 =>
    cases decodeFixed_eq_command h
    rfl
  case h_11 => cases h

/-- Settles O51: a step that changes a flag resets, or runs an instruction that writes P, and FWR changes the flag at
its own index only. -/
theorem flagChangesOnlyByFlagWriteOrStatusWrite : Obligations.FlagChangesOnlyByFlagWriteOrStatusWrite := by
  unfold Obligations.FlagChangesOnlyByFlagWriteOrStatusWrite
  intro s t j h hne
  obtain hc | hreset | ⟨w, d, rest, i, hq, hd, he⟩ := step_cells_cases h
  · exact absurd (by rw [hc]) hne
  · exact .inl hreset
  · have hw : i.writes = some .p := by
      by_contra hw
      have hp : t.cells.p = s.cells.p := p_eq_of_buf_eq (exec_buf_other (s := accept d rest s) he hw)
      exact hne (by rw [hp])
    refine .inr ⟨w, d, rest, hq, ?_⟩
    obtain ⟨off, rfl⟩ | ⟨off, sel, rfl⟩ | ⟨-, n, hn⟩ := writes_cases hw
    · exact .inr (.inl ⟨off, hd⟩)
    · exact .inr (.inr ⟨off, sel, hd⟩)
    · obtain rfl : i = .fwr n := (core_of_decode hd).symm.trans hn
      have hj : j = n := by
        by_contra hj
        exact hne (exec_fwr_getLsbD_other (s := accept d rest s) he hj)
      exact .inl (hj ▸ hd)

/-! ## The flag layout -/

namespace StatusFlag

/-- A flag's index is a bit of the byte (R34). -/
theorem index_lt (f : StatusFlag) : f.index < 8 := by
  cases f <;> decide

/-- No two flags share an index (R34). -/
theorem index_injective : Function.Injective index := by
  intro f g h
  cases f <;> cases g <;> simp [index] at h ⊢

/-- A flag's mask is the one bit at its index (R34). -/
theorem mask_eq (f : StatusFlag) : f.mask = 1#8 <<< f.index := by
  cases f <;> rfl

/-- Masks of different flags have no bit in common (R34). -/
theorem mask_and_mask {f g : StatusFlag} (h : f ≠ g) : f.mask &&& g.mask = 0#8 := by
  have hi : f.index ≠ g.index := fun he => h (index_injective he)
  rw [mask_eq, mask_eq, ← BitVec.twoPow_eq, ← BitVec.twoPow_eq, BitVec.and_twoPow, BitVec.getLsbD_twoPow]
  simp [hi]

end StatusFlag

/-- The masked test of a flag is the bit at its index (R34, R120). -/
theorem flagOf_eq (b : Byte) (f : StatusFlag) : flagOf b f = b.getLsbD f.index := by
  rw [flagOf, f.mask_eq]
  exact bvGet_eq b f.index_lt

/-- Settles O36: the table holds row by row, and each mask is the one bit at its flag's own index. -/
theorem flagLayoutHasNoOverlap : Obligations.FlagLayoutHasNoOverlap := by
  unfold Obligations.FlagLayoutHasNoOverlap
  exact ⟨rfl, fun b f _ => ⟨flagOf_eq b f, StatusFlag.mask_and_mask⟩⟩

end Sys2Proof.Machine
end

section
/-! SUPPORT. Proofs about the accesses of spec/20_memory.md: views of different widths of the same bytes, reads and
writes that repeat, and the commands that touch no cell. -/

namespace Sys2Proof.Machine

/-! ## Views of different widths -/

/-- RDI of a legal width inside the cell answers the integer there (R103). -/
theorem exec_rdi_of_inside {r : Reg} {off sel : Nat} {s : State} (hl : legalWidth (effWidth r sel) = true)
    (hb : off + effWidth r sel ≤ cellSize s.cfg r) :
    exec (.rdi r off sel) s = respond (memRead s.cells r off (effWidth r sel)) s :=
  withWidth_ok hl hb fun n => respond (memRead s.cells r off n) s

/-- WRI of a legal width inside the cell stores a value that fits (R104). -/
theorem exec_wri_of_lt {r : Reg} {off sel : Nat} {s : State} (hl : legalWidth (effWidth r sel) = true)
    (hb : off + effWidth r sel ≤ cellSize s.cfg r) (hd : s.d.toNat < 2 ^ (8 * effWidth r sel)) :
    exec (.wri r off sel) s =
      respond 0#64 { s with cells := memWrite s.cells r off (effWidth r sel) s.d } := by
  rw [exec, execWri, withWidth_ok hl hb, withFit_of_fits (.inl hd), setWidth_setWidth_of_lt hd]

/-- A window inside stored bytes is that window of the bytes (R53). -/
theorem take_drop_storeBytes {bs new : List Byte} {off k m : Nat} (h : off + new.length ≤ bs.length)
    (hm : k + m ≤ new.length) : ((storeBytes bs off new).drop (off + k)).take m = (new.drop k).take m := by
  apply List.ext_getElem?
  intro j
  simp only [List.getElem?_take, List.getElem?_drop, storeBytes_getElem? _ _ _ _ h]
  split
  · rw [if_pos (by omega), show off + k + j - off = k + j by omega]
  · rfl

/-- A window of m of the bytes of a value is the m bytes of the value shifted to it (R53, R55). -/
theorem take_drop_bytesOf {n k m : Nat} (v : Data) (h : k + m ≤ n) :
    ((bytesOf n v).drop k).take m = bytesOf m (v >>> (8 * (n - k - m))) := by
  apply List.ext_getElem?
  intro j
  rw [List.getElem?_take, List.getElem?_drop]
  split
  · rw [bytesOf_getElem? v (by omega), bytesOf_getElem? _ ‹_›]
    congr 1
    ext i hi
    simp [show 8 * (n - k - m) + (8 * (m - 1 - j) + i) = 8 * (n - 1 - (k + j)) + i by omega]
  · exact (List.getElem?_eq_none (by simpa using ‹¬j < m›)).symm

/-- R55: an m-byte read inside an n-byte write answers the bits of the value from byte k on. -/
theorem memRead_memWrite (c : Cells) (r : Reg) {off n k m : Nat} (v : Data) (hm : m ≤ 8)
    (hb : off + n ≤ (buf c r).length) (hk : k + m ≤ n) :
    memRead (memWrite c r off n v) r (off + k) m =
      (v.extractLsb' (8 * (n - k - m)) (8 * m)).setWidth 64 := by
  rw [memRead, memWrite, buf_setBuf_same _ _ (storeBytes_length _ _ _),
    take_drop_storeBytes (by simpa using hb) (by simpa using hk), take_drop_bytesOf v hk, concatBytes_bytesOf hm,
    BitVec.setWidth_ushiftRight_eq_extractLsb]

/-- Settles O25: the write leaves the value's bytes at `off`, and the read's window lies inside them. -/
theorem mixedWidthViewsAgree : Obligations.MixedWidthViewsAgree := by
  unfold Obligations.MixedWidthViewsAgree
  intro s off n k m hw hn hm hb hk hd
  have hlen : off + n ≤ (buf s.cells .gen).length := by
    rw [buf_length hw]
    exact hb
  have hd' : s.d.toNat < 2 ^ (8 * n) := by
    rw [Nat.pow_mul]
    exact hd
  have hinside : off + k + m ≤ s.cfg.rsize := by omega
  have hread := memRead_memWrite s.cells .gen s.d (m := m) (by omega) hlen hk
  refine ⟨_, exec_wri_of_lt (r := .gen) ((legalWidth_iff n).2 hn) hb hd', ?_⟩
  refine (exec_rdi_of_inside (r := .gen) (s := { s with cells := memWrite s.cells .gen off n s.d, response := _ })
    ((legalWidth_iff m).2 hm) hinside).trans ?_
  exact congrArg (fun v => respond v _) hread

/-! ## Reads -/

/-- An instruction that left the cells as they were answers the same when it is repeated (R61, R171). -/
theorem exec_again_of_cells_eq {i : Instr} {s t : State} (h : exec i s = .next t) (hc : t.cells = s.cells) :
    exec i t = .next t := by
  obtain ⟨hcfg, hd, hq, -⟩ := exec_frame h
  exact (exec_congr i hc hcfg hq hd).trans h

/-- Settles O47: an instruction that writes no cell can only respond, and a response is not read again. -/
theorem readsHaveNoSideEffects : Obligations.ReadsHaveNoSideEffects := by
  unfold Obligations.ReadsHaveNoSideEffects
  intro i s t hw h
  obtain ⟨resp, e, -⟩ | ⟨r, _, hr, -⟩ := exec_effect i s
  · obtain rfl : { s with response := some resp } = t := Host.Outcome.next.inj (e.symm.trans h)
    exact ⟨rfl, exec_again_of_cells_eq h rfl⟩
  · cases hw.symm.trans hr

/-! ## Writes -/

/-- What R62 says of an operation: from the state it leaves, with the parameters as they were, it answers that state. -/
def Repeatable (op : State → Result) : Prop :=
  ∀ s t, op s = .next t → t.cfg = s.cfg ∧ op t = .next t

/-- A store of the data, cut to m bits, repeats when storing one value twice is storing it once. -/
theorem Repeatable.withFit {m : Nat} {store : Data → Cells → Cells}
    (hstore : ∀ v c, store v (store v c) = store v c) :
    Repeatable fun s => withFit m s fun v => respond 0#64 { s with cells := store v s.cells } := by
  intro s t h
  obtain ⟨hfits, e⟩ | ⟨⟨hd, hp⟩, e⟩ := withFit_cases m s fun v => respond 0#64 { s with cells := store v s.cells }
  · cases e.symm.trans h
    refine ⟨rfl, (withFit_of_fits (s := { s with cells := store _ s.cells, response := _ }) hfits _).trans ?_⟩
    simp only [hstore, respond]
  · cases e.symm.trans h
    exact ⟨rfl, withFit_reject hd hp _⟩

theorem Repeatable.withBit {i : Nat} {op : State → Result} (hop : Repeatable op) :
    Repeatable fun s => withBit i s (op s) := by
  intro s t h
  obtain ⟨hi, e⟩ | ⟨hi, e⟩ := withBit_cases i s (op s)
  · cases e.symm.trans h
    exact ⟨rfl, if_pos hi⟩
  · obtain ⟨hcfg, ht⟩ := hop s t (e.symm.trans h)
    exact ⟨hcfg, (if_neg (Nat.not_lt.2 hi)).trans ht⟩

theorem Repeatable.withByte {r : Reg} {off : Nat} {op : State → Result} (hop : Repeatable op) :
    Repeatable fun s => withByte r off s (op s) := by
  intro s t h
  obtain ⟨hb, e⟩ | ⟨hb, e⟩ := withByte_cases r off s (op s)
  · cases e.symm.trans h
    exact ⟨rfl, if_pos hb⟩
  · obtain ⟨hcfg, ht⟩ := hop s t (e.symm.trans h)
    rw [← hcfg] at hb
    exact ⟨hcfg, (if_neg (Nat.not_le.2 hb)).trans ht⟩

theorem Repeatable.withWidth {r : Reg} {off sel : Nat} {op : Nat → State → Result} (hop : ∀ n, Repeatable (op n)) :
    Repeatable fun s => withWidth r off sel s fun n => op n s := by
  intro s t h
  obtain ⟨hl, e⟩ | ⟨⟨hl, hb⟩, e⟩ | ⟨⟨hl, hb⟩, e⟩ := withWidth_cases r off sel s fun n => op n s
  · cases e.symm.trans h
    exact ⟨rfl, if_neg (Bool.eq_false_iff.1 hl)⟩
  · cases e.symm.trans h
    exact ⟨rfl, (if_pos hl).trans (if_pos hb)⟩
  · obtain ⟨hcfg, ht⟩ := hop _ s t (e.symm.trans h)
    rw [← hcfg] at hb
    exact ⟨hcfg, (withWidth_ok hl hb _).trans ht⟩

/-- Storing one byte twice is storing it once (R62). -/
theorem byteWrite_byteWrite (c : Cells) (r : Reg) (k : Nat) (b : Byte) :
    byteWrite (byteWrite c r k b) r k b = byteWrite c r k b := by
  rw [byteWrite, byteWrite, buf_setBuf_same _ _ List.length_set, setBuf_setBuf, List.set_set]

/-- Storing one integer twice is storing it once (R62). -/
theorem memWrite_memWrite (c : Cells) (r : Reg) (off n : Nat) (v : Data) :
    memWrite (memWrite c r off n v) r off n v = memWrite c r off n v := by
  rw [memWrite, memWrite, buf_setBuf_same _ _ (storeBytes_length _ _ _), setBuf_setBuf, storeBytes_storeBytes]

/-- A bit forced twice to one value is forced once (R121). -/
theorem bvSet_bvSet (b : Byte) (i : Nat) (v : Bool) : bvSet (bvSet b i v) i v = bvSet b i v := by
  cases v with
  | false => exact (BitVec.and_assoc ..).trans (congrArg _ BitVec.and_self)
  | true => exact (BitVec.or_assoc ..).trans (congrArg _ BitVec.or_self)

/-- An update of the status byte by one bit of data repeats when the update does. -/
theorem Repeatable.withFit_storeStatus {update : Data → Byte → Byte}
    (h : ∀ v b, update v (update v b) = update v b) :
    Repeatable fun s =>
      Machine.withFit 1 s fun v => respond 0#64 (storeStatus (update v (byteRead s.cells .p 0)) s) := by
  refine Repeatable.withFit (store := fun v c => byteWrite c .p 0 (update v (byteRead c .p 0))) fun v c => ?_
  change byteWrite (byteWrite c .p 0 _) .p 0 (update v (update v c.p)) = _
  rw [h]
  exact byteWrite_byteWrite c .p 0 _

/-- A named setter repeats: its masks do (R129 to R143). -/
theorem Repeatable.writeNamedFlag (setMask clearMask : Byte) : Repeatable (writeNamedFlag setMask clearMask) := by
  refine .withFit_storeStatus (update := fun v b => if v = 1#64 then b ||| setMask else b &&& clearMask)
    fun v b => ?_
  by_cases hv : v = 1#64
  · simp only [if_pos hv, BitVec.or_assoc, BitVec.or_self]
  · simp only [if_neg hv, BitVec.and_assoc, BitVec.and_self]

/-- Every instruction that writes a cell can be repeated (R62). -/
theorem exec_repeatable_of_writes {i : Instr} {r : Reg} (h : i.writes = some r) : Repeatable (exec i) := by
  cases i with
  | wrb r' off =>
    exact .withByte (.withFit (store := fun v c => byteWrite c r' off (v.setWidth 8))
      fun v c => byteWrite_byteWrite c r' off (v.setWidth 8))
  | wri r' off sel =>
    exact .withWidth fun n => .withFit (store := fun v c => memWrite c r' off n v)
      fun v c => memWrite_memWrite c r' off n v
  | fwr n =>
    exact .withBit (.withFit_storeStatus (update := fun v b => bvSet b n (v = 1#64))
      fun v b => bvSet_bvSet b n (v = 1#64))
  | setC | setZ | setI | setD | setU3 | setU2 | setV | setN => exact .writeNamedFlag _ _
  | rdb | rdi | rdv | rds | frd | bvg | bvs | getC | getZ | getI | getD | getU3 | getU2 | getV | getN => cases h

/-- Settles O48: each write stores the same bytes again over those it stored. -/
theorem writesAreIdempotent : Obligations.WritesAreIdempotent := by
  unfold Obligations.WritesAreIdempotent
  intro i s t r hw h
  exact (exec_repeatable_of_writes hw s t h).2

/-! ## The commands that touch no cell -/

/-- The shape of BVG and BVS: the response is the same over any cells, and the cells stay (R122, R102, R59). -/
theorem withBit_withFit_respond_of_cells (i m : Nat) (f : Data → Data) (s : State) :
    ∃ resp, ∀ c : Cells,
      withBit i { s with cells := c } (withFit m { s with cells := c } fun v => respond (f v) { s with cells := c }) =
        .next { s with cells := c, response := some resp } := by
  by_cases hi : 7 < i
  · exact ⟨⟨.indexOutOfBounds, 0#64⟩, fun c => if_pos hi⟩
  obtain ⟨hfits, -⟩ | ⟨⟨hd, hp⟩, -⟩ := withFit_cases m s fun v => respond (f v) s
  · exact ⟨⟨.ok, f ((s.d.setWidth m).setWidth 64)⟩, fun c =>
      (if_neg hi).trans (withFit_of_fits (s := { s with cells := c }) hfits _)⟩
  · exact ⟨⟨.valueOutOfRange, 0#64⟩, fun c =>
      (if_neg hi).trans (withFit_reject (s := { s with cells := c }) hd hp _)⟩

/-- BVG and BVS have one response over any cells, and leave them (R124, R125). -/
theorem exec_bitView_of_cells {i : Instr} {b : Nat} (hi : i = .bvg b ∨ i = .bvs b) (s : State) :
    ∃ resp, ∀ c : Cells, exec i { s with cells := c } = .next { s with cells := c, response := some resp } := by
  obtain rfl | rfl := hi
  · exact withBit_withFit_respond_of_cells b 8 (fun v => boolData (bvGet (v.setWidth 8) b)) s
  · exact withBit_withFit_respond_of_cells b 9 (fun x => (bvSet (x.setWidth 8) b (x.getLsbD 8)).setWidth 64) s

/-- Settles O53: the one response stands over the state's own cells and over any other. -/
theorem bitViewCommandsIgnoreTheCells : Obligations.BitViewCommandsIgnoreTheCells := by
  unfold Obligations.BitViewCommandsIgnoreTheCells
  intro i b s t c hi h
  obtain ⟨resp, hresp⟩ := exec_bitView_of_cells hi s
  cases (hresp s.cells).symm.trans h
  exact ⟨rfl, hresp c⟩

end Sys2Proof.Machine
end

section
/-! SUPPORT. Proofs about the encoding of spec/30_encoding.md: decoder and encoder undo each other, and which
words are legal. -/

namespace Sys2Proof

/-! ## Decoder and encoder -/

/-- R73: a number selects the cell that has it. -/
theorem Reg.eq_sel_of_ofSel {n : Nat} {r : Reg} (h : Reg.ofSel n = some r) : n = r.sel := by
  unfold Reg.ofSel at h
  split at h <;> cases h <;> rfl

/-- A command on a cell is legal when its fixed fields hold, and then it names the cell of that number (R78, R80). -/
theorem decodeOnCell_eq_command_iff {rsel : Nat} {ok : Bool} {mk : Reg → Instr} {i : Instr} :
    decodeOnCell rsel ok mk = .command i ↔ ok = true ∧ ∃ r : Reg, rsel = r.sel ∧ mk r = i := by
  constructor
  · intro h
    unfold decodeOnCell at h
    split at h
    · exact ⟨rfl, _, Reg.eq_sel_of_ofSel ‹_›, Decoded.command.inj h⟩
    · cases h
  · rintro ⟨rfl, r, rfl, rfl⟩
    simp [decodeOnCell]

/-- A command without a cell of its choice is legal when its fixed fields hold (R78). -/
theorem decodeFixed_eq_command_iff {ok : Bool} {i i' : Instr} :
    decodeFixed ok i = .command i' ↔ ok = true ∧ i = i' := by
  cases ok <;> simp [decodeFixed]

/-- Fields that decode are the fields of the command's word, and the command's operands are among them (R83). -/
theorem encode_of_decodeFields {op rsel off sel : Nat} {i : Instr} (h : decodeFields op rsel off sel = .command i)
    (hf : off < 16) (hs : sel < 16) : encode i = makeWord op rsel off sel ∧ i.wellFormed = true := by
  unfold decodeFields at h
  split at h
  case h_1 | h_2 | h_3 | h_4 | h_5 | h_6 =>
    obtain ⟨hok, r, rfl, rfl⟩ := decodeOnCell_eq_command_iff.1 h
    simp_all [encode, Instr.wellFormed, fieldFits_iff]
  case h_7 | h_8 | h_9 | h_10 =>
    obtain ⟨hok, rfl⟩ := decodeFixed_eq_command_iff.1 h
    simp_all [encode, Instr.wellFormed, fieldFits_iff]
  case h_11 => cases h

/-- A word that decodes has z = 0 and fields that decode (R78, R83). -/
theorem decode_command {w : CmdWord} {i : Instr} (h : decode w = .command i) :
    zField w = 0 ∧ decodeFields (opField w) (rselField w) (offField w) (selField w) = .command i := by
  unfold decode at h
  split at h
  · exact ⟨‹_›, h⟩
  · cases h

theorem offField_lt (w : CmdWord) : offField w < 16 := BitVec.isLt _

theorem selField_lt (w : CmdWord) : selField w < 16 := BitVec.isLt _

theorem rselField_lt (w : CmdWord) : rselField w < 8 := BitVec.isLt _

/-- Settles O13: a legal word is made of its fields, and those are the fields of its command's word. -/
theorem encodeOfDecode : Obligations.EncodeOfDecode := by
  unfold Obligations.EncodeOfDecode
  intro w i h
  obtain ⟨hz, hfields⟩ := decode_command h
  obtain ⟨he, hwf⟩ := encode_of_decodeFields hfields (offField_lt w) (selField_lt w)
  exact ⟨he.trans (makeWord_fields w hz), hwf, Machine.core_of_decode h⟩

/-- A word made of a command's fields decodes to the command's generic form (R83, R88). -/
theorem decode_encode {i : Instr} (h : i.wellFormed = true) : decode (encode i) = .command i.core := by
  cases i with
  | rdb r off | wrb r off =>
    have hoff : off < 16 := (fieldFits_iff off).1 h
    have hr := r.sel_lt
    rw [encode, decode_makeWord (by decide) (by omega) hoff (by decide)]
    exact decodeOnCell_eq_command_iff.2 ⟨rfl, r, rfl, rfl⟩
  | rdi r off sel | wri r off sel =>
    obtain ⟨hoff, hsel⟩ := Bool.and_eq_true_iff.1 h
    have hr := r.sel_lt
    rw [encode, decode_makeWord (by decide) (by omega) ((fieldFits_iff off).1 hoff) ((fieldFits_iff sel).1 hsel)]
    exact decodeOnCell_eq_command_iff.2 ⟨rfl, r, rfl, rfl⟩
  | rdv r | rds r =>
    have hr := r.sel_lt
    rw [encode, decode_makeWord (by decide) (by omega) (by decide) (by decide)]
    exact decodeOnCell_eq_command_iff.2 ⟨rfl, r, rfl, rfl⟩
  | frd sel | fwr sel | bvg sel | bvs sel =>
    rw [encode, decode_makeWord (by decide) (by decide) (by decide) ((fieldFits_iff sel).1 h)]
    rfl
  | getC | setC | getZ | setZ | getI | setI | getD | setD | getU3 | setU3 | getU2 | setU2 | getV | setV | getN
  | setN => decide

/-- A generic command has operands that fit when the instruction's do: a flag's index is below 8 (R85). -/
theorem core_wellFormed {i : Instr} (h : i.wellFormed = true) : i.core.wellFormed = true := by
  cases i <;> exact h

/-- A generic command is its own (R88). -/
theorem core_core (i : Instr) : i.core.core = i.core := by cases i <;> rfl

/-- Settles O12: the generic command's fields fit the word, and the decoder reads each of them back. -/
theorem decodeOfEncode : Obligations.DecodeOfEncode := by
  unfold Obligations.DecodeOfEncode
  exact fun i h => ⟨decode_encode h, core_wellFormed h, core_core i⟩

/-- Settles O11: the decoder runs on each of the words written out. -/
theorem specWordsDecode : Obligations.SpecWordsDecode := by
  unfold Obligations.SpecWordsDecode
  decide

/-! ## The legal words -/

/-- A word has an instruction exactly when it is a command. -/
theorem instr?_eq_some_iff {x : Decoded} {i : Instr} : x.instr? = some i ↔ x = .command i := by
  cases x <;> simp [Decoded.instr?]

/-- The register selects an operation accepts, none for a reserved operation (R79, R80). -/
def rselLegal (op rsel : Nat) : Bool :=
  decide (op < 6 ∧ rsel < 7 ∨ (op = 6 ∨ op = 7) ∧ rsel = 5 ∨ (op = 8 ∨ op = 9) ∧ rsel = 0)

/-- The byte offsets an operation accepts (R78). -/
def offLegal (op off : Nat) : Bool := decide (op < 4 ∨ off = 0)

/-- The widths or bit indices an operation accepts (R78). -/
def selLegal (op sel : Nat) : Bool := decide (op = 2 ∨ op = 3 ∨ 6 ≤ op ∨ sel = 0)

/-- A word is legal when each of its fields is, for its operation. -/
def fieldsLegal (op rsel z off sel : Nat) : Bool :=
  rselLegal op rsel && (z == 0 && (offLegal op off && selLegal op sel))

theorem ofSel_isSome {n : Nat} (h : n < 8) : (Reg.ofSel n).isSome = decide (n < 7) := by
  revert n
  decide

theorem decodeOnCell_isSome {rsel : Nat} (h : rsel < 8) (ok : Bool) (mk : Reg → Instr) :
    (decodeOnCell rsel ok mk).instr?.isSome = (decide (rsel < 7) && ok) := by
  rw [← ofSel_isSome h]
  cases ok with
  | false => simp [decodeOnCell, Decoded.instr?]
  | true => cases hr : Reg.ofSel rsel <;> simp [decodeOnCell, hr, Decoded.instr?]

theorem decodeFixed_isSome (ok : Bool) (i : Instr) : (decodeFixed ok i).instr?.isSome = ok := by
  cases ok <;> rfl

/-- The decoder accepts exactly the legal fields (R78, R79, R80, R83). -/
theorem decodeFields_isSome {op rsel off sel : Nat} (h : rsel < 8) :
    (decodeFields op rsel off sel).instr?.isSome = fieldsLegal op rsel 0 off sel := by
  unfold decodeFields
  split
  case h_1 | h_2 | h_3 | h_4 | h_5 | h_6 =>
    rw [decodeOnCell_isSome h]
    simp [fieldsLegal, rselLegal, offLegal, selLegal, beq_eq_decide]
  case h_7 | h_8 | h_9 | h_10 =>
    rw [decodeFixed_isSome]
    simp [fieldsLegal, rselLegal, offLegal, selLegal, beq_eq_decide]
  case h_11 =>
    have hop : 10 ≤ op := by grind
    have hrsel : rselLegal op rsel = false := by
      rw [rselLegal, decide_eq_false_iff_not]
      omega
    rw [fieldsLegal, hrsel]
    rfl

/-- The fields of a word as numbers (R71). -/
theorem fields_eq (w : CmdWord) :
    opField w = w.toNat / 4096 ∧ rselField w = w.toNat / 512 % 8 ∧ zField w = w.toNat / 256 % 2 ∧
      offField w = w.toNat / 16 % 16 ∧ selField w = w.toNat % 16 := by
  have := w.isLt
  refine ⟨?_, ?_, ?_, ?_, ?_⟩ <;>
    simp only [opField, rselField, zField, offField, selField, BitVec.extractLsb'_toNat, Nat.shiftRight_eq_div_pow]
  · omega
  · omega

/-- The decoder accepts exactly the words with legal fields. -/
theorem decode_isSome (w : CmdWord) :
    (decode w).instr?.isSome =
      fieldsLegal (w.toNat / 4096) (w.toNat / 512 % 8) (w.toNat / 256 % 2) (w.toNat / 16 % 16) (w.toNat % 16) := by
  obtain ⟨hop, hrsel, hz, hoff, hsel⟩ := fields_eq w
  rw [← hop, ← hrsel, ← hz, ← hoff, ← hsel]
  unfold decode
  split
  case isTrue h => rw [decodeFields_isSome (rselField_lt w), h]
  case isFalse h => simp [fieldsLegal, h, Decoded.instr?]

/-- A word is a command exactly when its fields are legal. -/
theorem exists_command_iff (w : CmdWord) :
    (∃ i, decode w = .command i) ↔
      fieldsLegal (w.toNat / 4096) (w.toNat / 512 % 8) (w.toNat / 256 % 2) (w.toNat / 16 % 16) (w.toNat % 16) = true := by
  simp only [← decode_isSome, Option.isSome_iff_exists, instr?_eq_some_iff]

/-- Settles O9: what the statement lists is that some field is not legal, and the decoder refuses just those words. -/
theorem illegalWordsRaiseIllegalCommand : Obligations.IllegalWordsRaiseIllegalCommand := by
  unfold Obligations.IllegalWordsRaiseIllegalCommand
  intro s w d rest op rsel z off sel hq hop hrsel hz hoff hsel
  have hlegal := exists_command_iff w
  rw [← hop, ← hrsel, ← hz, ← hoff, ← hsel] at hlegal
  have hrsel8 : rsel < 8 := by omega
  clear hop hrsel hz hoff hsel
  simp only [fieldsLegal, rselLegal, offLegal, selLegal, Bool.and_eq_true, decide_eq_true_eq, beq_iff_eq] at hlegal
  constructor
  · intro hbad
    cases hw : decode w with
    | command i =>
      have hfields := hlegal.1 ⟨i, hw⟩
      omega
    | illegal => simp [Machine.step, hq, hw, Machine.raise, Machine.accept]
  · intro hgood
    rw [hlegal]
    omega

/-- Counting by digits: where a property of `b * i + j` is one of `i` and one of `j`, the counts multiply. -/
theorem countP_range_mul {p q r : Nat → Bool} {a b : Nat}
    (h : ∀ i < a, ∀ j < b, p (b * i + j) = (q i && r j)) :
    (List.range (b * a)).countP p = (List.range a).countP q * (List.range b).countP r := by
  induction a with
  | zero => simp
  | succ a ih =>
    have hlast : (List.range b).countP (p ∘ (b * a + ·)) = (List.range b).countP fun j => q a && r j :=
      List.countP_congr fun j hj => by simp [h a (Nat.lt_succ_self a) j (List.mem_range.1 hj)]
    rw [Nat.mul_succ, List.range_add, List.countP_append, List.countP_map, hlast, ih fun i hi => h i (by omega),
      List.range_succ, List.countP_append, Nat.add_mul]
    cases hq : q a <;> simp [hq]

/-- How many words of an operation are legal: a choice of each field by itself (R81). -/
def legalCount (op : Nat) : Nat :=
  (List.range 8).countP (rselLegal op) * ((List.range 2).countP (· == 0) *
    ((List.range 16).countP (offLegal op) * (List.range 16).countP (selLegal op)))

/-- The decoder accepts that many words of each operation. -/
theorem countP_decode_isSome {op : Nat} (h : op < 16) :
    ((List.range 4096).countP fun n => (decode (BitVec.ofNat 16 (4096 * op + n))).instr?.isSome) = legalCount op := by
  rw [legalCount, ← countP_range_mul (p := fun n => offLegal op (n / 16) && selLegal op (n % 16)),
    ← countP_range_mul (p := fun n => n / 256 == 0 && (offLegal op (n % 256 / 16) && selLegal op (n % 16)))]
  · refine countP_range_mul (a := 8) (b := 512) fun rsel hr n hn => ?_
    rw [decode_isSome, BitVec.toNat_ofNat, Nat.mod_eq_of_lt (by omega), fieldsLegal,
      show (4096 * op + (512 * rsel + n)) / 4096 = op by omega,
      show (4096 * op + (512 * rsel + n)) / 512 % 8 = rsel by omega,
      show (4096 * op + (512 * rsel + n)) / 256 % 2 = n / 256 by omega,
      show (4096 * op + (512 * rsel + n)) / 16 % 16 = n % 256 / 16 by omega,
      show (4096 * op + (512 * rsel + n)) % 16 = n % 16 by omega]
  · intro z hz n hn
    rw [show (256 * z + n) / 256 = z by omega, show (256 * z + n) % 256 = n by omega,
      show (256 * z + n) % 16 = n % 16 by omega]
  · intro off hoff sel hsel
    rw [show (16 * off + sel) / 16 = off by omega, show (16 * off + sel) % 16 = sel by omega]

/-- Settles O10: each operation's words are counted field by field. -/
theorem legalWordCounts : Obligations.LegalWordCounts := by
  unfold Obligations.LegalWordCounts
  intro legalWithOp hdef
  have hcounts : (List.range 16).map legalWithOp = (List.range 16).map legalCount :=
    List.map_congr_left fun op hop => (hdef op).trans (countP_decode_isSome (List.mem_range.1 hop))
  rw [hcounts]
  decide

end Sys2Proof
end

section
/-! SUPPORT. Proofs about the commands of spec/30_encoding.md: the step's answer to a command, the status table, the
commands without data, the named flag accessors and the assembler lines. -/

namespace Sys2Proof.Machine

/-! ## The step -/

/-- A command word that decodes runs its instruction (R70, R83). -/
theorem step_of_command {s : State} {w : CmdWord} {d : Data} {rest : List Request} {i : Instr}
    (hq : s.requests = .command w d :: rest) (hw : decode w = .command i) : step s = exec i (accept d rest s) := by
  simp only [step, hq, hw]

/-- Settles O6: the step's two equations. -/
theorem stepRunsTheDecodedCommand : Obligations.StepRunsTheDecodedCommand := by
  unfold Obligations.StepRunsTheDecodedCommand
  refine ⟨fun s w d rest i hq hw => step_of_command hq hw, fun s hq => ?_⟩
  simp only [step, hq, idle]

/-- A word in the host's numbering decodes as the command word it is (R82). -/
theorem decode_of_decodeTableWord {w : Nat} {i : Instr} (h : decodeTableWord 16 w = some i) :
    decode (BitVec.ofNat 16 (w % 2 ^ 16)) = .command i := by
  rw [decodeTableWord, if_pos (Nat.le_refl 16)] at h
  exact instr?_eq_some_iff.1 h

/-- Settles O7: the presented request is taken, which leaves the state as it stood. -/
theorem presentedWordRunsNext : Obligations.PresentedWordRunsNext := by
  unfold Obligations.PresentedWordRunsNext
  intro s w i h
  exact step_of_command (s := s.withFetchWord 16 w) rfl (decode_of_decodeTableWord h)

/-- Settles O8: an idle step and the reset input give no response, an illegal word and an instruction always do. -/
theorem oneResponsePerCommand : Obligations.OneResponsePerCommand := by
  unfold Obligations.OneResponsePerCommand
  intro s
  obtain ⟨hq, e⟩ | ⟨rest, hq, e⟩ | ⟨w, d, rest, hq, -, e⟩ | ⟨w, d, rest, i, hq, -, e⟩ := step_cases s
  · exact ⟨_, e, by simp [hq], by simp [hq]⟩
  · exact ⟨_, e, by simp [hq], by simp [hq]⟩
  · exact ⟨_, e, by simp [hq], by simp [hq]⟩
  · obtain ⟨t, ht⟩ := exec_next i (accept d rest s)
    obtain ⟨-, -, hrest, hresp⟩ := exec_frame ht
    exact ⟨t, e.trans ht, by simp [hq, hrest], by simp [hq, hresp]⟩

/-! ## The status table and the data input -/

/-- Settles O42: the codes are the table's, and what an instruction answers on an error or a write has rdata 0. -/
theorem responsesFollowTheStatusTable : Obligations.ResponsesFollowTheStatusTable := by
  unfold Obligations.ResponsesFollowTheStatusTable
  refine ⟨rfl, fun e => by cases e <;> decide, fun i s t resp h hr hzero => ?_⟩
  obtain ⟨resp', e, hrdata⟩ | ⟨_, _, -, -, e⟩ := exec_effect i s
  · cases e.symm.trans h
    cases hr
    exact hrdata hzero
  · cases e.symm.trans h
    cases hr
    rfl

/-- What R76 says of an operation that takes no data: at every data input it only responds, and with one response. -/
def IgnoresData (op : State → Result) : Prop :=
  ∀ s : State, ∃ resp, ∀ x : Data, op { s with d := x } = .next { s with d := x, response := some resp }

/-- A read of the cells and the parameters does not see the data input. -/
theorem IgnoresData.respond (f : Cells → Config → Data) : IgnoresData fun s => respond (f s.cells s.cfg) s :=
  fun s => ⟨⟨.ok, f s.cells s.cfg⟩, fun _ => rfl⟩

theorem IgnoresData.withBit {i : Nat} {op : State → Result} (hop : IgnoresData op) :
    IgnoresData fun s => withBit i s (op s) := by
  intro s
  by_cases hi : 7 < i
  · exact ⟨⟨.indexOutOfBounds, 0#64⟩, fun x => if_pos hi⟩
  · obtain ⟨resp, hresp⟩ := hop s
    exact ⟨resp, fun x => (if_neg hi).trans (hresp x)⟩

theorem IgnoresData.withByte {r : Reg} {off : Nat} {op : State → Result} (hop : IgnoresData op) :
    IgnoresData fun s => withByte r off s (op s) := by
  intro s
  by_cases hb : cellSize s.cfg r ≤ off
  · exact ⟨⟨.indexOutOfBounds, 0#64⟩, fun x => if_pos hb⟩
  · obtain ⟨resp, hresp⟩ := hop s
    exact ⟨resp, fun x => (if_neg hb).trans (hresp x)⟩

theorem IgnoresData.withWidth {r : Reg} {off sel : Nat} {op : Nat → State → Result} (hop : ∀ n, IgnoresData (op n)) :
    IgnoresData fun s => withWidth r off sel s fun n => op n s := by
  intro s
  by_cases hl : legalWidth (effWidth r sel) = true
  · by_cases hb : cellSize s.cfg r < off + effWidth r sel
    · exact ⟨⟨.indexOutOfBounds, 0#64⟩, fun x => (if_pos hl).trans (if_pos hb)⟩
    · obtain ⟨resp, hresp⟩ := hop (effWidth r sel) s
      exact ⟨resp, fun x => (if_pos hl).trans ((if_neg hb).trans (hresp x))⟩
  · exact ⟨⟨.unsupportedWidth, 0#64⟩, fun x => if_neg hl⟩

/-- Every command that takes no data ignores the data input (R76). -/
theorem exec_ignoresData {i : Instr} (h : i.dataBits = none) : IgnoresData (exec i) := by
  cases i with
  | rdb r off => exact .withByte (.respond fun c _ => (byteRead c r off).setWidth 64)
  | rdi r off sel => exact .withWidth fun n => .respond fun c _ => memRead c r off n
  | rdv r => exact .respond fun c _ => concatBytes (buf c r)
  | rds r => exact .respond fun _ g => BitVec.ofNat 64 (cellSize g r)
  | frd n => exact .withBit (.respond fun c _ => boolData (bvGet (byteRead c .p 0) n))
  | getC | getZ | getI | getD | getU3 | getU2 | getV | getN =>
    exact .respond fun c _ => boolData ((byteRead c .p 0).getLsbD _)
  | wrb | wri | fwr | bvg | bvs | setC | setZ | setI | setD | setU3 | setU2 | setV | setN => cases h

/-- Settles O52: the one response stands at the state's own data input and at any other. -/
theorem commandsWithoutDataIgnoreIt : Obligations.CommandsWithoutDataIgnoreIt := by
  unfold Obligations.CommandsWithoutDataIgnoreIt
  intro i s t x hi h
  obtain ⟨resp, hresp⟩ := exec_ignoresData hi s
  cases (hresp s.d).symm.trans h
  exact hresp x

/-! ## The named flag accessors -/

/-- A getter's rule is FRD's at an index of the byte (R126, R128). -/
theorem readNamedFlag_eq_execFrd {n : Nat} (h : n < 8) (s : State) : readNamedFlag n s = execFrd n s := by
  rw [execFrd, bvGet_eq _ h]
  exact (if_neg (by omega)).symm

/-- A setter's rule, with the mask of bit n and its complement, is FWR's at n (R127, R129). -/
theorem writeNamedFlag_eq_execFwr {n : Nat} (h : n < 8) (s : State) :
    writeNamedFlag (1#8 <<< n) (~~~(1#8 <<< n)) s = execFwr n s := by
  have hset (v : Data) (b : Byte) :
      bvSet b n (v = 1#64) = if v = 1#64 then b ||| 1#8 <<< n else b &&& ~~~(1#8 <<< n) := by simp [bvSet]
  rw [execFwr]
  simp only [hset]
  exact (if_neg (by omega)).symm

/-- An accessor has the word of the command it expands to (R85). -/
theorem encode_core (i : Instr) : encode i.core = encode i := by
  cases i with
  | rdb | wrb | rdi | wri | rdv | rds | frd | fwr | bvg | bvs => rfl
  | getC | setC | getZ | setZ | getI | setI | getD | setD | getU3 | setU3 | getU2 | setU2 | getV | setV | getN
  | setN => decide

/-- An accessor acts as the command it expands to (R128 to R143). -/
theorem exec_core (i : Instr) (s : State) : exec i.core s = exec i s := by
  cases i with
  | rdb | wrb | rdi | wri | rdv | rds | frd | fwr | bvg | bvs => rfl
  | getC | getZ | getI | getD | getU3 | getU2 | getV | getN => exact (readNamedFlag_eq_execFrd (by decide) s).symm
  | setC | setZ | setI | setD | setU3 | setU2 | setV | setN => exact (writeNamedFlag_eq_execFwr (by decide) s).symm

/-- Settles O14: the accessor's fixed word is its expansion's, and so is its effect. -/
theorem namedAccessorsActAsTheirExpansion : Obligations.NamedAccessorsActAsTheirExpansion := by
  unfold Obligations.NamedAccessorsActAsTheirExpansion
  exact fun i s => ⟨(encode_core i).symm, (exec_core i s).symm⟩

/-! ## The assembler -/

/-- The word of an instruction whose operands fit is run as that instruction, an accessor's by its expansion. -/
theorem step_of_encode {s : State} {i : Instr} {d : Data} {rest : List Request} (hi : i.wellFormed = true)
    (hq : s.requests = .command (encode i) d :: rest) : step s = exec i (accept d rest s) :=
  (step_of_command hq (decode_encode hi)).trans (exec_core i _)

/-- A line whose operands fit assembles to its instruction's word, and the step that takes it runs that instruction. -/
theorem assembled_runs {l : AsmLine} {i : Instr} {d : Data} (hp : l.parts = some (i, d)) (hi : i.wellFormed = true) :
    assemble l = some (.command (encode i) d) ∧
      ∀ (s : State) (rest : List Request), s.requests = .command (encode i) d :: rest →
        step s = exec i { s with d := d, requests := rest } :=
  ⟨assemble_of_wellFormed hp hi, fun _ _ hq => step_of_encode hi hq⟩

/-- A line without an instruction whose operands fit is refused (R84). -/
theorem assemble_eq_none {l : AsmLine} (h : (l.parts.any fun p => p.1.wellFormed) = false) : assemble l = none := by
  cases hp : l.parts with
  | none => exact assemble_of_parts_none hp
  | some p => exact assemble_of_not_wellFormed hp (by simpa [hp] using h)

/-- A name that is no spelling of a table is not found there (R85). -/
theorem lookupName_eq_none {table : List (String × String × Instr)} {name : String}
    (h : name ∉ table.flatMap fun row => [row.1, row.2.1]) : lookupName table name = none := by
  rw [lookupName, Option.map_eq_none_iff, List.find?_eq_none]
  intro row hrow hfound
  have hname : row.1 = name ∨ row.2.1 = name := by simpa using hfound
  obtain rfl | rfl := hname <;> exact h (List.mem_flatMap.2 ⟨row, hrow, by simp⟩)

/-- Both spellings of a row are found in its table, and they name the row's accessor (R85). -/
theorem lookupName_of_mem {table : List (String × String × Instr)} (h : table = getterTable ∨ table = setterTable) :
    ∀ row ∈ table, lookupName table row.1 = some row.2.2 ∧ lookupName table row.2.1 = some row.2.2 ∧
      row.2.2.wellFormed = true := by
  obtain rfl | rfl := h <;> decide

/-- The lines of an accessor's two spellings, and the line of the command it expands to, assemble to the accessor's word
(R85). -/
theorem assemble_spellings {table : List (String × String × Instr)} (ht : table = getterTable ∨ table = setterTable)
    {row : String × String × Instr} (hrow : row ∈ table) {line : String → AsmLine} {expanded : AsmLine} {d : Data}
    (hline : ∀ name, (line name).parts = (lookupName table name).map fun i => (i, d))
    (hexpanded : expanded.parts = some (row.2.2.core, d)) :
    assemble (line row.1) = some (.command (encode row.2.2) d) ∧
      assemble (line row.2.1) = some (.command (encode row.2.2) d) ∧
      assemble expanded = some (.command (encode row.2.2) d) := by
  obtain ⟨hshort, hlong, hi⟩ := lookupName_of_mem ht row hrow
  refine ⟨assemble_of_wellFormed ?_ hi, assemble_of_wellFormed ?_ hi, ?_⟩
  · rw [hline, hshort, Option.map_some]
  · rw [hline, hlong, Option.map_some]
  · rw [← encode_core]
    exact assemble_of_wellFormed hexpanded (core_wellFormed hi)

/-- Settles O15: each row is a row of the accessor tables, with its expansion and its word. -/
theorem spellingsAssembleToFixedWords : Obligations.SpellingsAssembleToFixedWords := by
  unfold Obligations.SpellingsAssembleToFixedWords
  constructor
  · intro row hrow
    obtain ⟨e, he, hshort, hlong, hcore, hword⟩ : ∃ e ∈ getterTable, e.1 = row.1 ∧ e.2.1 = row.2.1 ∧
        e.2.2.core = .frd row.2.2.1 ∧ encode e.2.2 = row.2.2.2 := by
      revert row
      decide
    rw [← hshort, ← hlong, ← hword]
    exact assemble_spellings (.inl rfl) he (line := .getter) (fun _ => rfl) (hcore ▸ rfl)
  · intro row hrow b
    obtain ⟨e, he, hshort, hlong, hcore, hword⟩ : ∃ e ∈ setterTable, e.1 = row.1 ∧ e.2.1 = row.2.1 ∧
        e.2.2.core = .fwr row.2.2.1 ∧ encode e.2.2 = row.2.2.2 := by
      revert row
      decide
    rw [← hshort, ← hlong, ← hword]
    exact assemble_spellings (.inr rfl) he (line := (.setter · b)) (fun _ => rfl) (hcore ▸ rfl)

/-- An operand above 15 fits no field (R74, R75). -/
theorem fieldFits_eq_false {n : Nat} (h : 16 ≤ n) : fieldFits n = false := by
  simpa [fieldFits] using h

/-- Settles O16: a line's instruction and data are those of its row, and its operands fit; a line with an operand above
15, an omitted width on another cell or an unknown name has no instruction whose operands fit. -/
theorem assembledLineRuns : Obligations.AssembledLineRuns := by
  unfold Obligations.AssembledLineRuns
  refine ⟨fun r off w i v x b hoff hw hi row hrow => ?_, fun r off w i width v x b => ⟨fun h l hl => ?_,
    fun h l hl => ?_, fun h l hl => ?_, fun hp hs l hl => ?_⟩, fun name hname => ?_, fun name v hname => ?_⟩
  · suffices h : row.1.parts = some row.2 ∧ row.2.1.wellFormed = true from assembled_runs h.1 h.2
    revert row
    simp [AsmLine.parts, Instr.wellFormed, fieldFits_iff, hoff, hw, hi, bvsData_eq, lookupName, getterTable, setterTable]
  · apply assemble_eq_none
    revert l
    cases hn : widthOperand r width <;> simp [AsmLine.parts, hn, Instr.wellFormed, fieldFits_eq_false h]
  · apply assemble_eq_none
    revert l
    simp [AsmLine.parts, Instr.wellFormed, fieldFits_eq_false h]
  · apply assemble_eq_none
    revert l
    simp [AsmLine.parts, Instr.wellFormed, fieldFits_eq_false h]
  · apply assemble_of_parts_none
    revert l
    simp [AsmLine.parts, widthOperand_none hp hs]
  · apply assemble_of_parts_none
    rw [AsmLine.parts, lookupName_eq_none (table := getterTable) hname]
    rfl
  · apply assemble_of_parts_none
    rw [AsmLine.parts, lookupName_eq_none (table := setterTable) hname]
    rfl

end Sys2Proof.Machine
end

section
/-! SUPPORT. Proofs about the byte commands of spec/40_byte_access.md: the words and effects of RDB, WRB, RDV and RDS,
and a byte write to P. -/

namespace Sys2Proof.Machine

/-! ## The words and the bounds check -/

/-- The word of a command on a cell without a width: `op<<12 | rsel<<9 | off<<4` (R71). -/
theorem makeWord_onCell_toNat {op off : Nat} (r : Reg) (ho : op < 16) (hf : off < 16) :
    (makeWord op r.sel off 0).toNat = op * 4096 + r.sel * 512 + off * 16 :=
  (makeWord_toNat ho (Nat.lt_succ_of_lt r.sel_lt) hf (by decide)).trans (Nat.add_zero _)

/-- An offset inside the cell goes on (R93). -/
theorem withByte_of_lt {r : Reg} {off : Nat} {s : State} (h : off < cellSize s.cfg r) (go : Result) :
    withByte r off s go = go :=
  if_neg (Nat.not_le.2 h)

/-- An offset past the cell raises IndexOutOfBounds (R93). -/
theorem withByte_of_le {r : Reg} {off : Nat} {s : State} (h : cellSize s.cfg r ≤ off) (go : Result) :
    withByte r off s go = raise .indexOutOfBounds s :=
  if_pos h

/-! ## One byte of a buffer -/

/-- An offset inside the buffer has the byte ByteRead reads (R15). -/
theorem buf_getElem?_of_lt {c : Cells} {r : Reg} {k : Nat} (h : k < (buf c r).length) :
    (buf c r)[k]? = some (byteRead c r k) := by
  rw [byteRead, List.getD_eq_getElem _ _ h, List.getElem?_eq_getElem h]

/-- ByteWrite sets one byte of the cell's buffer (R15). -/
theorem buf_byteWrite_same (c : Cells) (r : Reg) (k : Nat) (b : Byte) :
    buf (byteWrite c r k b) r = (buf c r).set k b :=
  buf_setBuf_same c r List.length_set

/-- ByteWrite leaves every other byte of every cell (R15, R22). -/
theorem byteWrite_getElem?_other (c : Cells) {r r' : Reg} {k k' : Nat} (b : Byte) (h : ¬(r' = r ∧ k' = k)) :
    (buf (byteWrite c r k b) r')[k']? = (buf c r')[k']? := by
  by_cases hr : r' = r
  · subst hr
    have hk : k ≠ k' := fun hk => h ⟨rfl, hk.symm⟩
    rw [buf_byteWrite_same, List.getElem?_set_ne hk]
  · rw [byteWrite, buf_setBuf_other c hr]

/-! ## RDB and WRB -/

/-- Settles O17: the offset is inside the cell, which has that byte, or past it. -/
theorem rdbReadsOneByte : Obligations.RdbReadsOneByte := by
  unfold Obligations.RdbReadsOneByte
  intro s r off hw
  refine ⟨fun hoff => makeWord_onCell_toNat r (by decide) hoff, fun hlt => ?_, fun hle => withByte_of_le hle _⟩
  have hlen : off < (buf s.cells r).length := by rwa [buf_length hw]
  exact ⟨_, buf_getElem?_of_lt hlen, exec_rdb_of_lt hlt⟩

/-- WRB inside the cell stores the low byte of data that fits, and of any data under Truncate (R92, R102). -/
theorem exec_wrb_of_fits {r : Reg} {off : Nat} {s : State} (h : off < cellSize s.cfg r)
    (hd : s.d.toNat < 256 ∨ s.cfg.policy = .truncate) :
    exec (.wrb r off) s = respond 0#64 { s with cells := byteWrite s.cells r off (s.d.setWidth 8) } := by
  rw [exec, execWrb, withByte_of_lt h, withFit_of_fits hd, BitVec.setWidth_setWidth_of_le _ (by decide),
    BitVec.setWidth_eq]

/-- Settles O18: the checks of R93 and R102 in order, then ByteWrite of the low byte. -/
theorem wrbWritesOneByte : Obligations.WrbWritesOneByte := by
  unfold Obligations.WrbWritesOneByte
  intro s r off hw
  refine ⟨fun hoff => makeWord_onCell_toNat r (by decide) hoff, fun hlt hd => ?_, fun hle => withByte_of_le hle _,
    fun hlt hd hp => (withByte_of_lt hlt _).trans (withFit_reject hd hp _)⟩
  refine ⟨_, exec_wrb_of_fits hlt hd, ?_, fun _ _ => byteWrite_getElem?_other s.cells _⟩
  have hlen : off < (buf s.cells r).length := by rwa [buf_length hw]
  rw [buf_byteWrite_same, List.getElem?_set_self hlen]

/-! ## RDV and RDS -/

/-- Settles O19: the value is the concatenation of the buffer's bytes, of which there are at most 8. -/
theorem rdvReadsWholeBuffer : Obligations.RdvReadsWholeBuffer := by
  unfold Obligations.RdvReadsWholeBuffer
  intro s r hw
  refine ⟨makeWord_onCell_toNat (off := 0) r (by decide) (by decide), concatBytes (buf s.cells r), rfl, ?_⟩
  have h8 : (buf s.cells r).length ≤ 8 := by
    rw [buf_length hw]
    exact cellSize_le hw r
  rw [← buf_length hw]
  exact ⟨concatBytes_lt _ h8, fun k hk => concatBytes_extract _ h8 hk⟩

/-- Settles O20: RDS answers `size(r)`, cell by cell. -/
theorem rdsReportsTheSize : Obligations.RdsReportsTheSize := by
  unfold Obligations.RdsReportsTheSize
  refine ⟨fun r => makeWord_onCell_toNat (off := 0) r (by decide) (by decide), fun s => ⟨rfl, ?_, rfl⟩⟩
  rintro r (rfl | rfl | rfl | rfl | rfl) <;> rfl

/-! ## A byte write to P -/

/-- FRD at an index of the byte answers that bit of P (R126). -/
theorem exec_frd_of_le {i : Nat} (h : i ≤ 7) (s : State) :
    exec (.frd i) s = respond (boolData (s.cells.p.getLsbD i)) s :=
  (readNamedFlag_eq_execFrd (Nat.lt_succ_of_le h) s).symm

/-- A byte write to P, by either form, replaces the whole of P (R96). -/
theorem exec_statusByteWrite {w : Instr} (hw : w = .wrb .p 0 ∨ w = .wri .p 0 1) {s : State} {b : Byte}
    (hd : s.d = b.setWidth 64) : exec w s = respond 0#64 { s with cells := { s.cells with p := b } } := by
  have hfits : s.d.toNat < 256 := by
    rw [hd, BitVec.toNat_setWidth_of_le (by decide)]
    exact b.isLt
  have hlow : s.d.setWidth 8 = b := by
    rw [hd, BitVec.setWidth_setWidth_of_le _ (by decide), BitVec.setWidth_eq]
  obtain rfl | rfl := hw
  · rw [exec_wrb_of_fits Nat.zero_lt_one (.inl hfits), hlow]
    rfl
  · rw [exec_wri_of_lt rfl (Nat.le_refl 1) hfits, ← hlow, ← extract_low_byte]
    rfl

/-- Settles O39: P is the byte written, and FRD reads its bit. -/
theorem statusByteWriteSetsAllFlags : Obligations.StatusByteWriteSetsAllFlags := by
  unfold Obligations.StatusByteWriteSetsAllFlags
  intro s b i w hd hi hw
  exact ⟨_, exec_statusByteWrite hw hd, rfl, exec_frd_of_le hi _⟩

end Sys2Proof.Machine
end

section
/-! SUPPORT. Proofs about the multi-width access of spec/41_multiwidth_access.md: the words and effects of RDI and WRI,
the override on PC and SP, width 1 beside byte access, and what the oversize policy decides. -/

namespace Sys2Proof.Machine

/-! ## The words and the checks -/

/-- The word of a command on a cell with a width: `op<<12 | rsel<<9 | off<<4 | sel` (R71). -/
theorem makeWord_withSel_toNat {op off sel : Nat} (r : Reg) (ho : op < 16) (hf : off < 16) (hs : sel < 16) :
    (makeWord op r.sel off sel).toNat = op * 4096 + r.sel * 512 + off * 16 + sel :=
  makeWord_toNat ho (Nat.lt_succ_of_lt r.sel_lt) hf hs

/-- No legal width is above 8 bytes (R100). -/
theorem legalWidth_le {n : Nat} (h : legalWidth n = true) : n ≤ 8 := by
  obtain rfl | rfl | rfl | rfl := (legalWidth_iff n).1 h <;> decide

/-- A width R100 does not list raises UnsupportedWidth, at any offset (R116). -/
theorem withWidth_of_unsupported {r : Reg} {off sel : Nat} {s : State} (hl : ¬legalWidth (effWidth r sel) = true)
    (go : Nat → Result) : withWidth r off sel s go = raise .unsupportedWidth s :=
  if_neg hl

/-- A legal width past the end of the cell raises IndexOutOfBounds (R116). -/
theorem withWidth_of_past {r : Reg} {off sel : Nat} {s : State} (hl : legalWidth (effWidth r sel) = true)
    (hb : cellSize s.cfg r < off + effWidth r sel) (go : Nat → Result) :
    withWidth r off sel s go = raise .indexOutOfBounds s :=
  (if_pos hl).trans (if_pos hb)

/-- n bytes hold the values of 8n bits. -/
theorem two_pow_bits (n : Nat) : 2 ^ (8 * n) = 256 ^ n := Nat.pow_mul 2 8 n

/-! ## Integers in a buffer -/

/-- The bytes of a value are those of its low bits (R53). -/
theorem bytesOf_setWidth (n : Nat) (v : Data) : bytesOf n ((v.setWidth (8 * n)).setWidth 64) = bytesOf n v := by
  apply List.ext_getElem?
  intro k
  by_cases hk : k < n
  · rw [bytesOf_getElem? _ hk, bytesOf_getElem? _ hk]
    congr 1
    ext i hi
    simpa [show 8 * (n - 1 - k) + i < 8 * n by omega] using BitVec.lt_of_getLsbD
  · rw [List.getElem?_eq_none (by simpa using hk), List.getElem?_eq_none (by simpa using hk)]

/-- The bytes MemRead takes are those of the value it answers, which they bound (R52). -/
theorem memRead_spec (c : Cells) (r : Reg) {off n : Nat} (h8 : n ≤ 8) (hb : off + n ≤ (buf c r).length) :
    (memRead c r off n).toNat < 256 ^ n ∧
      ∀ k, k < n → (buf c r)[off + k]? = some ((memRead c r off n).extractLsb' (8 * (n - 1 - k)) 8) := by
  have hlen : (((buf c r).drop off).take n).length = n := by
    rw [List.length_take, List.length_drop]
    omega
  have hlt := concatBytes_lt (((buf c r).drop off).take n) (by omega)
  rw [hlen] at hlt
  refine ⟨hlt, fun k hk => ?_⟩
  have hbyte := concatBytes_extract (((buf c r).drop off).take n) (by omega) (k := k) (by omega)
  rw [hlen, List.getElem?_take_of_lt hk, List.getElem?_drop] at hbyte
  exact hbyte

/-- MemWrite's bytes stand at `off` on (R53). -/
theorem memWrite_getElem?_inside (c : Cells) (r : Reg) {off n k : Nat} (v : Data) (hb : off + n ≤ (buf c r).length)
    (hk : k < n) : (buf (memWrite c r off n v) r)[off + k]? = some (v.extractLsb' (8 * (n - 1 - k)) 8) := by
  rw [memWrite, buf_setBuf_same _ _ (storeBytes_length _ _ _), storeBytes_getElem? _ _ _ _ (by simpa using hb),
    if_pos (by simpa using hk), Nat.add_sub_cancel_left, bytesOf_getElem? v hk]

/-- MemWrite leaves every other byte of every cell (R53, R22). -/
theorem memWrite_getElem?_outside (c : Cells) {r r' : Reg} {off n k : Nat} (v : Data)
    (hb : off + n ≤ (buf c r).length) (hk : ¬(r' = r ∧ off ≤ k ∧ k < off + n)) :
    (buf (memWrite c r off n v) r')[k]? = (buf c r')[k]? := by
  by_cases hr : r' = r
  · subst hr
    have hout : ¬(off ≤ k ∧ k < off + n) := fun h => hk ⟨rfl, h⟩
    rw [memWrite, buf_setBuf_same _ _ (storeBytes_length _ _ _), storeBytes_getElem? _ _ _ _ (by simpa using hb),
      if_neg (by simpa using hout)]
  · rw [memWrite, buf_setBuf_other c hr]

/-- MemRead of what MemWrite wrote is the value's low bits (R111). -/
theorem memRead_memWrite_same (c : Cells) (r : Reg) {off n : Nat} (v : Data) (h8 : n ≤ 8)
    (hb : off + n ≤ (buf c r).length) :
    memRead (memWrite c r off n v) r off n = (v.setWidth (8 * n)).setWidth 64 := by
  have hread := memRead_memWrite c r v (k := 0) h8 hb (Nat.le_of_eq (Nat.zero_add n))
  have hlow : v.extractLsb' 0 (8 * n) = v.setWidth (8 * n) := by
    ext i hi
    simp
  rwa [Nat.add_zero, Nat.sub_zero, Nat.sub_self, Nat.mul_zero, hlow] at hread

/-! ## RDI and WRI -/

/-- RDI is the checks of R116, then MemRead (R103). -/
theorem exec_rdi (r : Reg) (off sel : Nat) (s : State) :
    exec (.rdi r off sel) s = withWidth r off sel s fun n => respond (memRead s.cells r off n) s := rfl

/-- WRI is the checks of R116 and R102, then MemWrite (R104). -/
theorem exec_wri (r : Reg) (off sel : Nat) (s : State) :
    exec (.wri r off sel) s = withWidth r off sel s fun n =>
      withFit (8 * n) s fun v => respond 0#64 { s with cells := memWrite s.cells r off n v } := rfl

/-- Settles O22: a legal width inside the cell, an illegal one, and a legal one past its end. -/
theorem rdiReadsBigEndian : Obligations.RdiReadsBigEndian := by
  unfold Obligations.RdiReadsBigEndian
  intro s r off sel n hw hn
  rw [← effWidth_eq] at hn
  subst hn
  rw [← legalWidth_iff]
  refine ⟨fun hf hs => makeWord_withSel_toNat r (by decide) hf hs, fun hl hb => ?_,
    fun hl => (exec_rdi r off sel s).trans (withWidth_of_unsupported hl _),
    fun hl hb => (exec_rdi r off sel s).trans (withWidth_of_past hl hb _)⟩
  exact ⟨_, exec_rdi_of_inside hl hb, memRead_spec s.cells r (legalWidth_le hl) (by rwa [buf_length hw])⟩

/-- WRI of a legal width inside the cell stores data that fits, and any data under Truncate (R104, R102). -/
theorem exec_wri_of_fits {r : Reg} {off sel : Nat} {s : State} (hl : legalWidth (effWidth r sel) = true)
    (hb : off + effWidth r sel ≤ cellSize s.cfg r)
    (hd : s.d.toNat < 256 ^ effWidth r sel ∨ s.cfg.policy = .truncate) :
    exec (.wri r off sel) s =
      respond 0#64 { s with cells := memWrite s.cells r off (effWidth r sel) s.d } := by
  rw [← two_pow_bits] at hd
  rw [exec_wri, withWidth_ok hl hb, withFit_of_fits hd, memWrite, bytesOf_setWidth, ← memWrite]

/-- WRI of a legal width inside the cell raises ValueOutOfRange under Reject on data too wide (R104, R102). -/
theorem exec_wri_of_oversize {r : Reg} {off sel : Nat} {s : State} (hl : legalWidth (effWidth r sel) = true)
    (hb : off + effWidth r sel ≤ cellSize s.cfg r) (hd : 256 ^ effWidth r sel ≤ s.d.toNat)
    (hp : s.cfg.policy = .reject) : exec (.wri r off sel) s = raise .valueOutOfRange s := by
  rw [← two_pow_bits] at hd
  rw [exec_wri, withWidth_ok hl hb, withFit_reject hd hp]

/-- Settles O23: the checks of R116 and R102 in order, then MemWrite of the low bytes. -/
theorem wriWritesBigEndian : Obligations.WriWritesBigEndian := by
  unfold Obligations.WriWritesBigEndian
  intro s r off sel n hw hn
  rw [← effWidth_eq] at hn
  subst hn
  rw [← legalWidth_iff]
  refine ⟨fun hf hs => makeWord_withSel_toNat r (by decide) hf hs, fun hl hb hd => ?_,
    fun hl => (exec_wri r off sel s).trans (withWidth_of_unsupported hl _),
    fun hl hb => (exec_wri r off sel s).trans (withWidth_of_past hl hb _),
    fun hl hb hd hp => exec_wri_of_oversize hl hb hd hp⟩
  have hlen : off + effWidth r sel ≤ (buf s.cells r).length := by rwa [buf_length hw]
  exact ⟨_, exec_wri_of_fits hl hb hd, fun _ hk => memWrite_getElem?_inside s.cells r s.d hlen hk,
    fun _ _ hk => memWrite_getElem?_outside s.cells s.d hlen hk⟩

/-- Settles O24: RDI reads the bytes WRI stored, and the value fits them. -/
theorem wriThenRdiReturnsTheValue : Obligations.WriThenRdiReturnsTheValue := by
  unfold Obligations.WriThenRdiReturnsTheValue
  intro s r off sel n hw hn hl hb hd
  rw [← effWidth_eq] at hn
  subst hn
  rw [← legalWidth_iff] at hl
  have hread : memRead (memWrite s.cells r off (effWidth r sel) s.d) r off (effWidth r sel) = s.d := by
    rw [memRead_memWrite_same s.cells r s.d (legalWidth_le hl) (by rwa [buf_length hw]),
      setWidth_setWidth_of_lt (by rwa [two_pow_bits])]
  refine ⟨_, exec_wri_of_fits hl hb (.inl hd), rfl, ?_⟩
  refine (exec_rdi_of_inside
    (s := { s with cells := memWrite s.cells r off (effWidth r sel) s.d, response := _ }) hl hb).trans ?_
  exact congrArg (fun v => respond v _) hread

/-! ## Width 1 and byte access -/

/-- An integer of one byte is that byte, past the end of the cell too (R52). -/
theorem memRead_one (c : Cells) (r : Reg) (off : Nat) : memRead c r off 1 = (byteRead c r off).setWidth 64 := by
  rw [memRead, byteRead, List.take_one, List.head?_drop, List.getD_eq_getElem?_getD]
  cases (buf c r)[off]? <;> simp [concatBytes]

/-- Writing an integer of one byte is writing that byte (R53). -/
theorem memWrite_one (c : Cells) (r : Reg) (off : Nat) (v : Data) :
    memWrite c r off 1 v = byteWrite c r off (v.setWidth 8) := by
  rw [← extract_low_byte]
  rfl

/-- With an effective width of 1 the width's check passes and the bounds check is that of R93. -/
theorem withWidth_one {r : Reg} {sel : Nat} (h : effWidth r sel = 1) (off : Nat) (s : State) (go : Nat → Result) :
    withWidth r off sel s go = withByte r off s (go 1) := by
  have hl : legalWidth (effWidth r sel) = true := by
    rw [h]
    rfl
  obtain ⟨hlt, e⟩ | ⟨hle, e⟩ := withByte_cases r off s (go 1)
  · rw [e, withWidth_of_past hl (by omega)]
  · rw [e, withWidth_ok hl (by omega), h]

/-- RDI of effective width 1 is RDB (R114). -/
theorem exec_rdi_eq_rdb {r : Reg} {sel : Nat} (h : effWidth r sel = 1) (off : Nat) (s : State) :
    exec (.rdi r off sel) s = exec (.rdb r off) s := by
  rw [exec_rdi, withWidth_one h, memRead_one]
  rfl

/-- WRI of effective width 1 is WRB (R114). -/
theorem exec_wri_eq_wrb {r : Reg} {sel : Nat} (h : effWidth r sel = 1) (off : Nat) (s : State) :
    exec (.wri r off sel) s = exec (.wrb r off) s := by
  rw [exec_wri, withWidth_one h]
  simp only [memWrite_one]
  rfl

/-- Settles O27: the effective width is 1, by `sel` on a cell without an override and by the override on SP. -/
theorem widthOneAgreesWithByteAccess : Obligations.WidthOneAgreesWithByteAccess := by
  unfold Obligations.WidthOneAgreesWithByteAccess
  intro s off sel
  refine ⟨fun r hpc hsp => ?_, exec_rdi_eq_rdb rfl off s, exec_wri_eq_wrb rfl off s⟩
  have hone : effWidth r 1 = 1 := by rw [effWidth_eq, if_neg hpc, if_neg hsp]
  exact ⟨exec_rdi_eq_rdb hone off s, exec_wri_eq_wrb hone off s⟩

/-! ## The override on PC and SP -/

/-- PC and SP work with a legal width that is their whole size, whatever `sel` holds (R105, R107). -/
theorem effWidth_override {r : Reg} (hr : r = .pc ∨ r = .sp) (sel : Nat) (c : Config) :
    legalWidth (effWidth r sel) = true ∧ effWidth r sel = cellSize c r := by
  obtain rfl | rfl := hr <;> exact ⟨rfl, rfl⟩

/-- On PC and SP every offset but 0 is past the end (R106, R107). -/
theorem withWidth_override_past {r : Reg} (hr : r = .pc ∨ r = .sp) {off : Nat} (ho : 1 ≤ off) (sel : Nat)
    (s : State) (go : Nat → Result) : withWidth r off sel s go = raise .indexOutOfBounds s := by
  obtain ⟨hl, hsize⟩ := effWidth_override hr sel s.cfg
  exact withWidth_of_past hl (by omega) go

/-- Settles O26: at offset 0 the access is the whole cell, as an integer of its size; any other offset is past it. -/
theorem pcAndSpOverrideTheWidth : Obligations.PcAndSpOverrideTheWidth := by
  unfold Obligations.PcAndSpOverrideTheWidth
  intro s sel
  have hpc : 0 + effWidth .pc sel ≤ cellSize s.cfg .pc := Nat.le_refl 2
  have hsp : 0 + effWidth .sp sel ≤ cellSize s.cfg .sp := Nat.le_refl 1
  refine ⟨?_, ?_, fun hd => ?_, fun hd => ?_, fun hd hp => exec_wri_of_oversize rfl hpc hd hp,
    fun hd hp => exec_wri_of_oversize rfl hsp hd hp,
    fun off ho r hr => ⟨(exec_rdi r off sel s).trans (withWidth_override_past hr ho sel s _),
      (exec_wri r off sel s).trans (withWidth_override_past hr ho sel s _)⟩⟩
  · exact (exec_rdi_of_inside rfl hpc).trans (congrArg (fun v => respond v s) (memRead_pc s.cells))
  · exact (exec_rdi_of_inside rfl hsp).trans (congrArg (fun v => respond v s) (memRead_one s.cells .sp 0))
  · exact (exec_wri_of_fits rfl hpc hd).trans
      (congrArg (fun c => respond 0#64 { s with cells := c }) (memWrite_pc s.cells s.d))
  · exact (exec_wri_of_fits rfl hsp hd).trans
      (congrArg (fun c => respond 0#64 { s with cells := c }) (memWrite_one s.cells .sp 0 s.d))

/-! ## The oversize policy -/

/-- Settles O40: data that fits is its own low bits; other data raises, or keeps them. -/
theorem oversizeCheckFollowsThePolicy : Obligations.OversizeCheckFollowsThePolicy := by
  unfold Obligations.OversizeCheckFollowsThePolicy
  intro d m _ hm
  refine ⟨fun hd p => ?_, fun hd => ⟨fit_reject hd, _, fit_of_fits (.inr rfl), ?_⟩⟩
  · rw [fit_of_fits (.inl hd), setWidth_setWidth_of_lt hd]
  · rw [BitVec.toNat_setWidth_of_le hm, BitVec.toNat_setWidth]

/-- The state with OVERSIZE_POLICY = Truncate and all else as it is (R11). -/
def State.truncating (s : State) : State := { s with cfg := { s.cfg with policy := .truncate } }

/-- What holds of an operation for which the policy decides only the oversize case: where it answers no
ValueOutOfRange under Reject, it answers the same under Truncate (R102). -/
def TruncatesAlike (op : State → Result) : Prop :=
  ∀ s t, s.cfg.policy = .reject → op s = .next t →
    (∀ resp, t.response = some resp → resp.status ≠ .valueOutOfRange) → op s.truncating = .next t.truncating

/-- The policy does not change the size of a cell. -/
theorem cellSize_truncating (s : State) (r : Reg) : cellSize s.truncating.cfg r = cellSize s.cfg r := by
  cases r <;> rfl

/-- A change of the cells and the response by the cells and the sizes does not see the policy. -/
theorem TruncatesAlike.respond (v : Cells → Data) (f : Cells → Cells) :
    TruncatesAlike fun s => respond (v s.cells) { s with cells := f s.cells } := by
  intro s t _ h _
  cases h
  rfl

/-- The oversize check goes on with the same value, or raises under Reject, which is excluded. -/
theorem TruncatesAlike.withFit {m : Nat} {op : Data → State → Result} (hop : ∀ v, TruncatesAlike (op v)) :
    TruncatesAlike fun s => withFit m s fun v => op v s := by
  intro s t hp h hne
  obtain ⟨-, e⟩ | ⟨-, e⟩ := withFit_cases m s fun v => op v s
  · exact (withFit_of_fits (s := s.truncating) (.inr rfl) _).trans (hop _ s t hp (e.symm.trans h) hne)
  · cases e.symm.trans h
    exact absurd rfl (hne _ rfl)

theorem TruncatesAlike.withBit {i : Nat} {op : State → Result} (hop : TruncatesAlike op) :
    TruncatesAlike fun s => withBit i s (op s) := by
  intro s t hp h hne
  obtain ⟨hi, e⟩ | ⟨hi, e⟩ := withBit_cases i s (op s)
  · cases e.symm.trans h
    exact if_pos hi
  · exact (if_neg (Nat.not_lt.2 hi)).trans (hop s t hp (e.symm.trans h) hne)

theorem TruncatesAlike.withByte {r : Reg} {off : Nat} {op : State → Result} (hop : TruncatesAlike op) :
    TruncatesAlike fun s => withByte r off s (op s) := by
  intro s t hp h hne
  obtain ⟨hb, e⟩ | ⟨hb, e⟩ := withByte_cases r off s (op s)
  · cases e.symm.trans h
    exact withByte_of_le (by rwa [cellSize_truncating]) _
  · exact (withByte_of_lt (by rwa [cellSize_truncating]) _).trans (hop s t hp (e.symm.trans h) hne)

theorem TruncatesAlike.withWidth {r : Reg} {off sel : Nat} {op : Nat → State → Result}
    (hop : ∀ n, TruncatesAlike (op n)) : TruncatesAlike fun s => withWidth r off sel s fun n => op n s := by
  intro s t hp h hne
  obtain ⟨hl, e⟩ | ⟨⟨hl, hb⟩, e⟩ | ⟨⟨hl, hb⟩, e⟩ := withWidth_cases r off sel s fun n => op n s
  · cases e.symm.trans h
    exact withWidth_of_unsupported (Bool.eq_false_iff.1 hl) _
  · cases e.symm.trans h
    exact withWidth_of_past hl (by rwa [cellSize_truncating]) _
  · exact (withWidth_ok hl (by rwa [cellSize_truncating]) _).trans (hop _ s t hp (e.symm.trans h) hne)

/-- RDS answers a size, which the policy does not change (R95). -/
theorem TruncatesAlike.execRds (r : Reg) : TruncatesAlike (execRds r) := by
  intro s t _ h _
  cases h
  rw [Machine.execRds, cellSize_truncating]
  rfl

/-- A flag write of the data's one bit goes by the oversize check alone (R127, R129). -/
theorem TruncatesAlike.storeStatus (update : Data → Byte → Byte) :
    TruncatesAlike fun s =>
      Machine.withFit 1 s fun v => Machine.respond 0#64 (storeStatus (update v s.cells.p) s) :=
  .withFit fun v => .respond (fun _ => 0#64) fun c => byteWrite c .p 0 (update v c.p)

/-- The policy decides only the oversize case of every instruction (R11, R102). -/
theorem exec_truncatesAlike (i : Instr) : TruncatesAlike (exec i) := by
  cases i with
  | rdb r off => exact .withByte (.respond (fun c => (byteRead c r off).setWidth 64) id)
  | wrb r off =>
    exact .withByte (.withFit fun v => .respond (fun _ => 0#64) fun c => byteWrite c r off (v.setWidth 8))
  | rdi r off sel => exact .withWidth fun n => .respond (fun c => memRead c r off n) id
  | wri r off sel =>
    exact .withWidth fun n => .withFit fun v => .respond (fun _ => 0#64) fun c => memWrite c r off n v
  | rdv r => exact .respond (fun c => concatBytes (buf c r)) id
  | rds r => exact .execRds r
  | frd n => exact .withBit (.respond (fun c => boolData (bvGet c.p n)) id)
  | fwr n => exact .withBit (.storeStatus fun v b => bvSet b n (v = 1#64))
  | bvg n => exact .withBit (.withFit fun v => .respond (fun _ => boolData (bvGet (v.setWidth 8) n)) id)
  | bvs n =>
    exact .withBit (.withFit fun x =>
      .respond (fun _ => (bvSet (x.setWidth 8) n (x.getLsbD 8)).setWidth 64) id)
  | getC | getZ | getI | getD | getU3 | getU2 | getV | getN =>
    exact .respond (fun c => boolData (c.p.getLsbD _)) id
  | setC | setZ | setI | setD | setU3 | setU2 | setV | setN =>
    exact .storeStatus fun v b => if v = 1#64 then b ||| _ else b &&& _

/-- Settles O41: the check goes on with the same value under both policies, and nothing else reads the policy. -/
theorem policyDecidesOnlyOversizeData : Obligations.PolicyDecidesOnlyOversizeData := by
  unfold Obligations.PolicyDecidesOnlyOversizeData
  exact exec_truncatesAlike

end Sys2Proof.Machine
end

section
/-! SUPPORT. Proofs about BitView and the flags of spec/42_bitview_and_flags.md: the words and effects of BVG, BVS, FRD
and FWR, the sixteen named accessors, and the flag decoder. -/

namespace Sys2Proof.Machine

/-! ## The word and the bit-index check -/

/-- The word of a command with a bit index: `op<<12 | rsel<<9 | sel` (R71, R75). -/
theorem makeWord_withBit_toNat {op rsel sel : Nat} (ho : op < 16) (hr : rsel < 8) (hs : sel < 16) :
    (makeWord op rsel 0 sel).toNat = op * 4096 + rsel * 512 + sel := by
  rw [makeWord_toNat ho hr (by decide) hs, Nat.zero_mul, Nat.add_zero]

/-- An index of the byte goes on (R122). -/
theorem withBit_of_le {i : Nat} (h : i ≤ 7) (s : State) (go : Result) : withBit i s go = go :=
  if_neg (Nat.not_lt.2 h)

/-- An index past the byte raises IndexOutOfBounds (R122). -/
theorem withBit_of_lt {i : Nat} (h : 7 < i) (s : State) (go : Result) : withBit i s go = raise .indexOutOfBounds s :=
  if_pos h

/-! ## BitView -/

/-- Settles O28: the masked test is the bit, and the masked update forces it alone. -/
theorem bitViewGetAndSet : Obligations.BitViewGetAndSet := by
  unfold Obligations.BitViewGetAndSet
  exact fun b _ _ v hi hj => ⟨bvGet_eq b hi, bvSet_getLsbD b v hj⟩

/-- The forced byte as read data: no bit stands above bit 7 (R121, R125). -/
theorem bvSet_setWidth_getLsbD (b : Byte) (i : Nat) (v : Bool) (j : Nat) :
    ((bvSet b i v).setWidth 64).getLsbD j = (decide (j < 8) && if j = i then v else b.getLsbD j) := by
  rw [BitVec.getLsbD_setWidth]
  by_cases hj : j < 8
  · rw [bvSet_getLsbD b v hj]
    simp [hj, show j < 64 by omega]
  · simp [hj, BitVec.getLsbD_of_ge (bvSet b i v) j (by omega)]

/-- BVG of data that fits a byte, and of any data under Truncate, answers the bit (R124, R102). -/
theorem exec_bvg_of_fits {i : Nat} {s : State} (hi : i ≤ 7) (hd : s.d.toNat < 256 ∨ s.cfg.policy = .truncate) :
    exec (.bvg i) s = respond (boolData (s.d.getLsbD i)) s := by
  have hi8 : i < 8 := Nat.lt_succ_of_le hi
  rw [exec, execBvg, withBit_of_le hi, withFit_of_fits hd, BitVec.setWidth_setWidth_of_le _ (by decide),
    BitVec.setWidth_eq, bvGet_eq _ hi8, BitVec.getLsbD_setWidth]
  simp [hi8]

/-- BVS of data that fits 9 bits, and of any data under Truncate, answers the byte forced (R125, R102). -/
theorem exec_bvs_of_fits {i : Nat} {s : State} (hi : i ≤ 7) (hd : s.d.toNat < 512 ∨ s.cfg.policy = .truncate) :
    exec (.bvs i) s = respond ((bvSet (s.d.setWidth 8) i (s.d.getLsbD 8)).setWidth 64) s := by
  have hbyte : ((s.d.setWidth 9).setWidth 64).setWidth 8 = s.d.setWidth 8 := by
    rw [BitVec.setWidth_setWidth_of_le _ (by decide), BitVec.setWidth_setWidth_of_le _ (by decide)]
  have hbit : ((s.d.setWidth 9).setWidth 64).getLsbD 8 = s.d.getLsbD 8 := by simp
  rw [exec, execBvs, withBit_of_le hi, withFit_of_fits hd, hbyte, hbit]

/-- Settles O29: the checks of R122 and R102 in order, then the bit of the low byte. -/
theorem bvgReadsABitOfTheData : Obligations.BvgReadsABitOfTheData := by
  unfold Obligations.BvgReadsABitOfTheData
  exact fun s i => ⟨fun hi => makeWord_withBit_toNat (by decide) (by decide) hi, fun hi hd => exec_bvg_of_fits hi hd,
    fun hi => withBit_of_lt hi s _, fun hi hd hp => (withBit_of_le hi s _).trans (withFit_reject hd hp _)⟩

/-- Settles O30: the checks of R122 and R102 in order, then the low byte with the bit forced. -/
theorem bvsForcesABitOfTheData : Obligations.BvsForcesABitOfTheData := by
  unfold Obligations.BvsForcesABitOfTheData
  intro s i
  refine ⟨fun hi => makeWord_withBit_toNat (by decide) (by decide) hi,
    fun hi hd => ⟨_, exec_bvs_of_fits hi hd, fun j => ?_⟩,
    fun hi => withBit_of_lt hi s _, fun hi hd hp => (withBit_of_le hi s _).trans (withFit_reject hd hp _)⟩
  rw [bvSet_setWidth_getLsbD, BitVec.getLsbD_setWidth]
  by_cases hj : j < 8 <;> simp [hj]

/-- The data input of BVS as a number: the flag stands above the byte (R125). -/
theorem bvsData_toNat (v : Bool) (b : Byte) :
    ((if v then 256#64 else 0#64) + b.setWidth 64).toNat = 256 * v.toNat + b.toNat := by
  have hflag : (if v then 256#64 else 0#64).toNat = 256 * v.toNat := by cases v <;> rfl
  have hbyte : (b.setWidth 64).toNat = b.toNat := BitVec.toNat_setWidth_of_le (by decide)
  have hb := b.isLt
  have hv := v.toNat_le
  rw [BitVec.toNat_add, hflag, hbyte, Nat.mod_eq_of_lt (by omega)]

/-- BVS of a flag and a byte answers the byte with the bit forced to the flag (R125). -/
theorem exec_bvs_of_byte {i : Nat} {s : State} {b : Byte} {v : Bool} (hi : i ≤ 7)
    (hd : s.d = (if v then 256#64 else 0#64) + b.setWidth 64) :
    exec (.bvs i) s = respond ((bvSet b i v).setWidth 64) s := by
  have hnat : s.d.toNat = 256 * v.toNat + b.toNat := hd ▸ bvsData_toNat v b
  have hb := b.isLt
  have hv := v.toNat_le
  have hbyte : s.d.setWidth 8 = b := by
    apply BitVec.eq_of_toNat_eq
    rw [BitVec.toNat_setWidth]
    omega
  have hbit : s.d.getLsbD 8 = v := by
    have hq : s.d.toNat / 2 ^ 8 = v.toNat := by omega
    rw [BitVec.getLsbD, Nat.testBit_eq_decide_div_mod_eq, hq]
    cases v <;> rfl
  rw [exec_bvs_of_fits hi (.inl (by omega)), hbyte, hbit]

/-- Settles O31: what BVS answered is a byte, whose bits are those of `bvSet`. -/
theorem bvgOfBvs : Obligations.BvgOfBvs := by
  unfold Obligations.BvgOfBvs
  intro s b v i j hi hj hd
  have hfits : ((bvSet b i v).setWidth 64).toNat < 256 := by
    rw [BitVec.toNat_setWidth_of_le (by decide)]
    exact (bvSet b i v).isLt
  have hbit : ((bvSet b i v).setWidth 64).getLsbD j = if j = i then v else b.getLsbD j := by
    rw [bvSet_setWidth_getLsbD, decide_eq_true (Nat.lt_succ_of_le hj), Bool.true_and]
  refine ⟨_, exec_bvs_of_byte hi hd, ?_⟩
  refine (exec_bvg_of_fits (s := { s with d := (bvSet b i v).setWidth 64 }) hj (.inl hfits)).trans ?_
  exact congrArg (fun x => respond (boolData x) _) hbit

/-! ## FRD and FWR -/

/-- Settles O32: the index is one of the byte, or raises. -/
theorem frdReadsOneFlag : Obligations.FrdReadsOneFlag := by
  unfold Obligations.FrdReadsOneFlag
  exact fun s i => ⟨fun hi => makeWord_withBit_toNat (by decide) (by decide) hi, fun hi => exec_frd_of_le hi s,
    fun hi => withBit_of_lt hi s _⟩

/-- The one bit `fit(d, 1)` keeps is `d[0]` (R102, R127). -/
theorem setWidth_one_eq_one (d : Data) : decide ((d.setWidth 1).setWidth 64 = 1#64) = d.getLsbD 0 := by
  simp only [← BitVec.toNat_inj, BitVec.toNat_setWidth_of_le (show 1 ≤ 64 by decide), BitVec.toNat_setWidth,
    BitVec.getLsbD, Nat.testBit_zero]
  rfl

/-- FWR of data that fits one bit, and of any data under Truncate, forces the flag to `d[0]` (R127, R102). -/
theorem exec_fwr_of_fits {i : Nat} {s : State} (hi : i ≤ 7) (hd : s.d.toNat < 2 ∨ s.cfg.policy = .truncate) :
    exec (.fwr i) s =
      respond 0#64 { s with cells := { s.cells with p := bvSet s.cells.p i (s.d.getLsbD 0) } } := by
  rw [exec, execFwr, withBit_of_le hi, withFit_of_fits hd, setWidth_one_eq_one]
  rfl

/-- FWR of data wider than one bit raises under Reject (R127, R102). -/
theorem exec_fwr_of_oversize {i : Nat} {s : State} (hi : i ≤ 7) (hd : 2 ≤ s.d.toNat) (hp : s.cfg.policy = .reject) :
    exec (.fwr i) s = raise .valueOutOfRange s :=
  (withBit_of_le hi s _).trans (withFit_reject hd hp _)

/-- Settles O33: the checks of R122 and R102 in order, then P with the one bit forced. -/
theorem fwrWritesOneFlag : Obligations.FwrWritesOneFlag := by
  unfold Obligations.FwrWritesOneFlag
  exact fun s i => ⟨fun hi => makeWord_withBit_toNat (by decide) (by decide) hi,
    fun hi hd => ⟨_, exec_fwr_of_fits hi hd, fun _ => bvSet_getLsbD s.cells.p _⟩,
    fun hi => withBit_of_lt hi s _, fun hi => exec_fwr_of_oversize hi⟩

/-- Settles O38: FRD reads the bits of P as FWR left them. -/
theorem flagReadAfterWrite : Obligations.FlagReadAfterWrite := by
  unfold Obligations.FlagReadAfterWrite
  intro s i j v hi hj hd
  have hfits : s.d.toNat < 2 := by rw [hd]; cases v <;> decide
  have hbit : s.d.getLsbD 0 = v := by rw [hd]; cases v <;> rfl
  have hp : (bvSet s.cells.p i (s.d.getLsbD 0)).getLsbD j = if j = i then v else s.cells.p.getLsbD j := by
    rw [bvSet_getLsbD _ _ (Nat.lt_succ_of_le hj), hbit]
  refine ⟨_, exec_fwr_of_fits hi (.inl hfits), (exec_frd_of_le hj _).trans ?_⟩
  exact congrArg (fun x => respond (boolData x) _) hp

/-! ## The named accessors -/

/-- Settles O34: each getter expands to FRD at its flag's index. -/
theorem namedGettersReadTheirFlag : Obligations.NamedGettersReadTheirFlag := by
  unfold Obligations.NamedGettersReadTheirFlag
  intro row hrow
  obtain ⟨hcore, hi⟩ : row.1.core = .frd row.2 ∧ row.2 ≤ 7 := by
    revert row
    decide
  have hword : encode row.1 = encode (.frd row.2) := by rw [← hcore, encode_core]
  refine ⟨?_, hword, fun s => ?_⟩
  · rw [hword]
    exact makeWord_withBit_toNat (by decide) (by decide) (by omega)
  · rw [← exec_core, hcore]
    exact exec_frd_of_le hi s

/-- Settles O35: each setter expands to FWR at its flag's index. -/
theorem namedSettersWriteTheirFlag : Obligations.NamedSettersWriteTheirFlag := by
  unfold Obligations.NamedSettersWriteTheirFlag
  intro row hrow
  obtain ⟨hcore, hi⟩ : row.1.core = .fwr row.2 ∧ row.2 ≤ 7 := by
    revert row
    decide
  have hword : encode row.1 = encode (.fwr row.2) := by rw [← hcore, encode_core]
  refine ⟨?_, hword, fun s => ?_⟩
  · rw [hword]
    exact makeWord_withBit_toNat (by decide) (by decide) (by omega)
  · rw [← exec_core, hcore]
    exact ⟨fun hd => ⟨_, exec_fwr_of_fits hi hd, fun _ => bvSet_getLsbD s.cells.p _⟩, exec_fwr_of_oversize hi⟩

/-! ## The flag decoder -/

/-- One flag's byte has the flag at its own place and no other bit (R147). -/
theorem flagBit_getLsbD (b : Bool) (i j : Nat) :
    (flagBit b i).getLsbD j = (decide (i < 8) && decide (i = j) && b) := by
  cases b with
  | false => simp [flagBit]
  | true => rw [flagBit, if_pos rfl, ← BitVec.twoPow_eq, BitVec.getLsbD_twoPow, Bool.and_true]

/-- The decoder finds each flag where the byte from flags puts it (R147). -/
theorem flagsOfByte_byteOfFlags (f : FlagSet) : flagsOfByte (byteOfFlags f) = f := by
  simp only [flagsOfByte, byteOfFlags, BitVec.getLsbD_or, flagBit_getLsbD]
  simp

/-- A byte is the sum of its flags at their places (R147). -/
theorem toNat_eq_flags (b : Byte) :
    b.toNat = 128 * (flagsOfByte b).c.toNat + 64 * (flagsOfByte b).z.toNat + 32 * (flagsOfByte b).i.toNat +
      16 * (flagsOfByte b).d.toNat + 8 * (flagsOfByte b).u3.toNat + 4 * (flagsOfByte b).u2.toNat +
      2 * (flagsOfByte b).v.toNat + (flagsOfByte b).n.toNat := by
  have hb := b.isLt
  simp only [flagsOfByte, BitVec.getLsbD, Nat.toNat_testBit]
  omega

/-- A byte is determined by its flags (R147). -/
theorem flagsOfByte_injective : Function.Injective flagsOfByte := by
  intro b b' h
  apply BitVec.eq_of_toNat_eq
  rw [toNat_eq_flags b, h, ← toNat_eq_flags b']

/-- Settles O37: the decoder undoes the byte from flags, and is injective, so the other way round too. -/
theorem flagDecoderIsABijection : Obligations.FlagDecoderIsABijection := by
  unfold Obligations.FlagDecoderIsABijection
  refine ⟨fun b => ⟨rfl, flagsOfByte_injective (flagsOfByte_byteOfFlags _)⟩, fun f => ⟨?_, flagsOfByte_byteOfFlags f⟩⟩
  rw [toNat_eq_flags, flagsOfByte_byteOfFlags]

end Sys2Proof.Machine
end

section
/-! SUPPORT. Proofs about the errors of spec/60_exceptions.md: the block never stops, an error changes nothing and is
not remembered, and when each error is raised. -/

namespace Sys2Proof.Machine

/-! ## Runs -/

/-- A step takes the oldest request, if there is one (R70). -/
theorem step_requests {s t : State} (h : step s = .next t) : t.requests = s.requests.tail := by
  obtain ⟨t', ht', hq, -⟩ := oneResponsePerCommand s
  cases ht'.symm.trans h
  exact hq

/-- Settles O5, by induction on the number of steps: each answers a next state and keeps the invariant. -/
theorem runNeverStopsAndKeepsSizes : Obligations.RunNeverStopsAndKeepsSizes := by
  unfold Obligations.RunNeverStopsAndKeepsSizes
  intro k
  induction k with
  | zero => exact fun s hw => ⟨s, rfl, hw, rfl, rfl⟩
  | succ k ih =>
    intro s hw
    obtain ⟨u, hu⟩ := step_next s
    obtain ⟨t, ht, htw, hcfg, hreq⟩ := ih u (step_wf hu hw)
    refine ⟨t, (run_succ core hu).trans ht, htw, hcfg.trans (step_cfg hu), ?_⟩
    rw [hreq, step_requests hu, List.drop_tail]

/-! ## An error changes nothing and is not remembered -/

/-- An instruction that raises leaves all but the response, with rdata 0 (R160). -/
theorem exec_of_error {i : Instr} {s t : State} {resp : Response} (h : exec i s = .next t)
    (hr : t.response = some resp) (he : resp.status ≠ .ok) :
    resp.rdata = 0#64 ∧ t = { s with response := some resp } := by
  obtain ⟨resp', e, hzero⟩ | ⟨_, _, -, -, e⟩ := exec_effect i s
  · cases e.symm.trans h
    cases hr
    exact ⟨hzero (.inl he), rfl⟩
  · cases e.symm.trans h
    cases hr
    exact absurd rfl he

/-- Settles O43: an illegal word writes no cell, and an instruction that raises changes only the response. -/
theorem errorsChangeNothing : Obligations.ErrorsChangeNothing := by
  unfold Obligations.ErrorsChangeNothing
  refine ⟨fun i s t resp => exec_of_error, fun s t resp h hr he => ?_⟩
  have hreq := step_requests h
  obtain ⟨-, e⟩ | ⟨_, -, e⟩ | ⟨_, _, _, -, -, e⟩ | ⟨_, d, rest, i, -, -, e⟩ := step_cases s
  · cases e.symm.trans h
    cases hr
  · cases e.symm.trans h
    cases hr
  · cases e.symm.trans h
    cases hr
    exact ⟨rfl, rfl, rfl, hreq⟩
  · obtain ⟨hzero, rfl⟩ := exec_of_error (e.symm.trans h) hr he
    exact ⟨hzero, rfl, rfl, hreq⟩

/-- A command word that does not decode raises IllegalCommand (R163). -/
theorem step_of_illegal {s : State} {w : CmdWord} {d : Data} {rest : List Request}
    (hq : s.requests = .command w d :: rest) (hw : decode w = .illegal) :
    step s = raise .illegalCommand (accept d rest s) := by
  simp only [step, hq, hw]

/-- Settles O54: the presented command brings its own data, and neither it nor an error reads the earlier response. -/
theorem nothingButTheCellsIsRemembered : Obligations.NothingButTheCellsIsRemembered := by
  unfold Obligations.NothingButTheCellsIsRemembered
  intro s u hc hg hq
  cases hs : s.requests with
  | nil =>
    have hstep := stepRunsTheDecodedCommand.2
    exact ⟨_, _, hstep s hs, hstep u (hq ▸ hs), hc, hg, hq, rfl⟩
  | cons request rest =>
    have hu : u.requests = request :: rest := hq ▸ hs
    cases request with
    | reset => exact ⟨_, _, step_of_reset hs, step_of_reset hu, congrArg (fun g => Cells.zero g.rsize) hg, hg, rfl, rfl⟩
    | command w d =>
      cases hw : decode w with
      | illegal => exact ⟨_, _, step_of_illegal hs hw, step_of_illegal hu hw, hc, hg, rfl, rfl⟩
      | command i =>
        obtain ⟨t, ht⟩ := exec_next i (accept d rest u)
        have hcongr : exec i (accept d rest s) = exec i (accept d rest u) := exec_congr i hc hg rfl rfl
        have hstep := (step_of_command hs hw).trans (hcongr.trans ht)
        exact ⟨t, t, hstep, (step_of_command hu hw).trans ht, rfl, rfl, rfl, rfl⟩

/-! ## When each error is raised -/

/-- An instruction's response shows the status its row of R166 gives it, and no other. -/
theorem exec_response_iff {i : Instr} {s t : State} {e : Status} (h : exec i s = .next t) :
    (∃ x, t.response = some ⟨e, x⟩) ↔ expectedStatus s i = e := by
  obtain ⟨-, -, -, hsome⟩ := exec_frame h
  obtain ⟨⟨e', x⟩, hr⟩ := Option.isSome_iff_exists.1 hsome
  rw [← exec_status h hr, hr]
  constructor
  · rintro ⟨_, heq⟩
    cases heq
    rfl
  · rintro rfl
    exact ⟨x, rfl⟩

/-- The oversize check succeeds or raises ValueOutOfRange (R102). -/
theorem fitStatus_cases (m : Nat) (s : State) : fitStatus m s = .ok ∨ fitStatus m s = .valueOutOfRange := by
  unfold fitStatus
  split
  · exact .inl rfl
  · exact .inr rfl

/-- The oversize check raises exactly under Reject and on a bit above the m it takes (R164). -/
theorem fitStatus_eq_valueOutOfRange_iff (m : Nat) (s : State) :
    fitStatus m s = .valueOutOfRange ↔ s.cfg.policy = .reject ∧ 2 ^ m ≤ s.d.toNat := by
  unfold fitStatus
  cases s.cfg.policy <;> simp

theorem fitStatus_ne_unsupportedWidth (m : Nat) (s : State) : fitStatus m s ≠ .unsupportedWidth := by
  obtain e | e := fitStatus_cases m s <;> simp [e]

theorem fitStatus_ne_indexOutOfBounds (m : Nat) (s : State) : fitStatus m s ≠ .indexOutOfBounds := by
  obtain e | e := fitStatus_cases m s <;> simp [e]

/-- An index check raises its error, or what follows it answers. -/
theorem indexStatus_cases (bad : Prop) [Decidable bad] (next : Status) :
    indexStatus bad next = .indexOutOfBounds ∨ indexStatus bad next = next := by
  unfold indexStatus
  split
  · exact .inl rfl
  · exact .inr rfl

theorem indexStatus_ne_unsupportedWidth {bad : Prop} [Decidable bad] {next : Status} (h : next ≠ .unsupportedWidth) :
    indexStatus bad next ≠ .unsupportedWidth := by
  obtain e | e := indexStatus_cases bad next
  · simp [e]
  · rwa [e]

theorem indexStatus_eq_indexOutOfBounds_iff {bad : Prop} [Decidable bad] {next : Status}
    (h : next ≠ .indexOutOfBounds) : indexStatus bad next = .indexOutOfBounds ↔ bad := by
  simp [indexStatus, h]

/-- The checks RDI and WRI share raise one of their two errors, or what follows them answers (R116). -/
theorem widthStatus_cases (r : Reg) (off sel : Nat) (s : State) (next : Status) :
    widthStatus r off sel s next = .unsupportedWidth ∨ widthStatus r off sel s next = .indexOutOfBounds ∨
      widthStatus r off sel s next = next := by
  unfold widthStatus
  split
  · exact .inr (indexStatus_cases _ next)
  · exact .inl rfl

/-- The checks RDI and WRI share raise UnsupportedWidth exactly on a width that is not legal (R116, R161). -/
theorem widthStatus_eq_unsupportedWidth_iff {r : Reg} {off sel : Nat} {s : State} {next : Status}
    (h : next ≠ .unsupportedWidth) :
    widthStatus r off sel s next = .unsupportedWidth ↔ ¬legalWidth (effWidth r sel) = true := by
  unfold widthStatus
  split
  · simp [*, indexStatus_ne_unsupportedWidth h]
  · simp [*]

/-- The checks RDI and WRI share raise IndexOutOfBounds exactly on a legal width that leaves the cell (R116, R162). -/
theorem widthStatus_eq_indexOutOfBounds_iff {r : Reg} {off sel : Nat} {s : State} {next : Status}
    (h : next ≠ .indexOutOfBounds) :
    widthStatus r off sel s next = .indexOutOfBounds ↔
      legalWidth (effWidth r sel) = true ∧ cellSize s.cfg r < off + effWidth r sel := by
  unfold widthStatus
  split
  · simp [*, indexStatus_eq_indexOutOfBounds_iff h]
  · simp [*]

/-- The override of PC and SP is legal (R105, R107); on the other cells the caller's width is the one checked. -/
theorem not_legalWidth_effWidth_iff (r : Reg) (sel : Nat) :
    ¬legalWidth (effWidth r sel) = true ↔
      (r = .a ∨ r = .x ∨ r = .y ∨ r = .p ∨ r = .gen) ∧ sel ≠ 1 ∧ sel ≠ 2 ∧ sel ≠ 4 ∧ sel ≠ 8 := by
  rw [legalWidth_iff]
  cases r <;> simp [effWidth]

/-- Settles O44: of the checks only the width check raises it, and only RDI and WRI have that check. -/
theorem unsupportedWidthExactlyWhen : Obligations.UnsupportedWidthExactlyWhen := by
  unfold Obligations.UnsupportedWidthExactlyWhen
  intro i s t h
  rw [exec_response_iff h]
  simp only [← not_legalWidth_effWidth_iff]
  cases i with
  | rdi r off sel => simp [expectedStatus, widthStatus_eq_unsupportedWidth_iff]
  | wri r off sel => simp [expectedStatus, widthStatus_eq_unsupportedWidth_iff, fitStatus_ne_unsupportedWidth]
  | rdb | frd => simp [expectedStatus, indexStatus_ne_unsupportedWidth]
  | wrb | fwr | bvg | bvs =>
    simp [expectedStatus, indexStatus_ne_unsupportedWidth, fitStatus_ne_unsupportedWidth]
  | rdv | rds | getC | getZ | getI | getD | getU3 | getU2 | getV | getN => simp [expectedStatus]
  | setC | setZ | setI | setD | setU3 | setU2 | setV | setN => simp [expectedStatus, fitStatus_ne_unsupportedWidth]

/-- Settles O45: each index check raises it exactly on its own condition, and the oversize check never does. -/
theorem indexOutOfBoundsExactlyWhen : Obligations.IndexOutOfBoundsExactlyWhen := by
  unfold Obligations.IndexOutOfBoundsExactlyWhen
  intro i s t h
  rw [exec_response_iff h]
  simp only [← effWidth_eq, ← legalWidth_iff]
  cases i with
  | rdb r off => simp [expectedStatus, indexStatus_eq_indexOutOfBounds_iff]
  | wrb r off => simp [expectedStatus, indexStatus_eq_indexOutOfBounds_iff, fitStatus_ne_indexOutOfBounds]
  | rdi r off sel => simp [expectedStatus, widthStatus_eq_indexOutOfBounds_iff]
  | wri r off sel => simp [expectedStatus, widthStatus_eq_indexOutOfBounds_iff, fitStatus_ne_indexOutOfBounds]
  | frd n => simp [expectedStatus, indexStatus_eq_indexOutOfBounds_iff]
  | fwr n | bvg n | bvs n =>
    simp [expectedStatus, indexStatus_eq_indexOutOfBounds_iff, fitStatus_ne_indexOutOfBounds]
  | rdv | rds | getC | getZ | getI | getD | getU3 | getU2 | getV | getN => simp [expectedStatus]
  | setC | setZ | setI | setD | setU3 | setU2 | setV | setN => simp [expectedStatus, fitStatus_ne_indexOutOfBounds]

/-- The status of the oversize check on the bits of `d` an instruction takes: OK when it takes none (R76, R102). -/
def dataStatus (i : Instr) (s : State) : Status :=
  match i.dataBits with
  | some m => fitStatus m s
  | none => .ok

/-- That check raises exactly under Reject, on data with a bit above the m bits the instruction takes (R164). -/
theorem dataStatus_eq_valueOutOfRange_iff (i : Instr) (s : State) :
    dataStatus i s = .valueOutOfRange ↔ ∃ m, i.dataBits = some m ∧ s.cfg.policy = .reject ∧ 2 ^ m ≤ s.d.toNat := by
  unfold dataStatus
  cases i.dataBits with
  | none => simp
  | some m => simp [fitStatus_eq_valueOutOfRange_iff]

/-- The oversize check comes last: an earlier check raises, or its status is the instruction's (R167). -/
theorem expectedStatus_cases (i : Instr) (s : State) :
    expectedStatus s i = .unsupportedWidth ∨ expectedStatus s i = .indexOutOfBounds ∨
      expectedStatus s i = dataStatus i s := by
  cases i with
  | rdi r off sel | wri r off sel => exact widthStatus_cases r off sel s _
  | rdb | wrb | frd | fwr | bvg | bvs => exact .inr (indexStatus_cases _ _)
  | rdv | rds | getC | getZ | getI | getD | getU3 | getU2 | getV | getN
  | setC | setZ | setI | setD | setU3 | setU2 | setV | setN => exact .inr (.inr rfl)

/-- ValueOutOfRange comes from the oversize check alone (R164, R167). -/
theorem dataStatus_of_valueOutOfRange {i : Instr} {s : State} (h : expectedStatus s i = .valueOutOfRange) :
    dataStatus i s = .valueOutOfRange := by
  obtain e | e | e := expectedStatus_cases i s
  · cases e.symm.trans h
  · cases e.symm.trans h
  · exact e.symm.trans h

/-- Where the oversize check raises, the instruction raises its error or one of an earlier check (R167). -/
theorem expectedStatus_of_oversize {i : Instr} {s : State} (h : dataStatus i s = .valueOutOfRange) :
    expectedStatus s i = .valueOutOfRange ∨ expectedStatus s i = .unsupportedWidth ∨
      expectedStatus s i = .indexOutOfBounds := by
  obtain e | e | e := expectedStatus_cases i s
  · exact .inr (.inl e)
  · exact .inr (.inr e)
  · exact .inl (e.trans h)

/-- Settles O46: only the oversize check raises it, and where that check raises the instruction raises some error, which
changes nothing. -/
theorem valueOutOfRangeOnlyUnderReject : Obligations.ValueOutOfRangeOnlyUnderReject := by
  unfold Obligations.ValueOutOfRangeOnlyUnderReject
  intro i s t h
  constructor
  · intro x hx
    have hdata := dataStatus_of_valueOutOfRange ((exec_response_iff h).1 ⟨x, hx⟩)
    obtain ⟨m, hm, hp, hd⟩ := (dataStatus_eq_valueOutOfRange_iff i s).1 hdata
    exact ⟨hp, m, hm, hd⟩
  · intro m hm hd hp
    have herr := expectedStatus_of_oversize ((dataStatus_eq_valueOutOfRange_iff i s).2 ⟨m, hm, hp, hd⟩)
    have hne : expectedStatus s i ≠ .ok := by
      obtain e | e | e := herr <;> simp [e]
    obtain ⟨x, hx⟩ := (exec_response_iff h).2 rfl
    obtain ⟨rfl, ht⟩ := exec_of_error h hx hne
    exact ⟨_, herr, ht⟩

end Sys2Proof.Machine
end

section
/-! SUPPORT. Proofs about the reset values of spec/70_reset_and_hazards.md. -/

namespace Sys2Proof.Machine

/-- No flag is set in the status byte 0 (R34). -/
theorem flagOf_zero (f : StatusFlag) : flagOf 0x00#8 f = false := by
  rw [flagOf_eq, BitVec.getLsbD_zero]

/-- Settles O1: each cell is `buf_zero` at its own size, and the flags are those of the zero status byte. -/
theorem resetLeavesEveryCellZero : Obligations.ResetLeavesEveryCellZero := by
  unfold Obligations.ResetLeavesEveryCellZero
  intro c
  exact ⟨buf_zero c .pc, rfl, buf_zero c .sp, buf_zero c .a, buf_zero c .x, buf_zero c .y, buf_zero c .p,
    flagOf_zero, buf_zero c .gen, rfl, rfl⟩

end Sys2Proof.Machine
end
